-- ==== Sys2Proof/Word.lean ====
section
/-! DEFINITION. The word types of UMC: 64-bit words, bytes, 128-bit values (00_scope.md R10). -/

namespace Sys2Proof

/-- A *word* or `u64` of the spec (R10). -/
abbrev Word := BitVec 64

/-- A `u8` of the spec (R10). -/
abbrev Byte := BitVec 8

/-- A `u128` of the spec (R10): the PH accumulator and carry-less products. -/
abbrev DWord := BitVec 128

/-- `2⁶⁴`, the wrap of `wrap64` (R11). -/
abbrev wordSize : Nat := 2 ^ 64

/-- `wrap64(v) = v mod 2⁶⁴` as a word (R11). -/
abbrev wrap64 (v : Nat) : Word := BitVec.ofNat 64 v

end Sys2Proof
end

