-- ==== Sys2Proof/Syntax.lean ====
section
/-! DEFINITION. The thirteen commands (30_encoding.md R104), the reasons a word is illegal,
and the thirteen registers of the REG window (20_memory.md R80). -/

namespace Sys2Proof

/-- The commands, one constructor per row of spec/opcode_table.json. The one operand field is `W`, the
source's `which`, a single bit (R102, R103), `true` for `W = 1`. -/
inductive Instr
  | addf
  | adds
  | mulf
  | horner
  | redp
  | clmul
  | phfull (w : Bool)
  | phlast (w : Bool)
  | smix
  | final
  | prepare
  | hash (w : Bool)
  | fprint
  deriving DecidableEq, Repr

/-- Why a word is no command (R101). The host sees all three alike, as `ERR = 1`. -/
inductive Illegal
  /-- `c[63:9] ≠ 0`. -/
  | reservedBits
  /-- `c[7:0]` is none of the thirteen opcodes. -/
  | unknownOpcode
  /-- `c[8] = 1` with the opcode of a format-N command. -/
  | whichOnFormatN
  deriving DecidableEq, Repr

/-- The registers of the REG window (R80), in address order. -/
inductive Reg
  | id | cmd | status | a | b | acc | m0 | m1 | seed | dptr | dlen | res0 | res1
  deriving DecidableEq, Repr

/-- One entry of an interleaving of host operations and completion steps (R85, log 5). -/
inductive Event
  /-- `HostRead(haddr, size)` (R70). -/
  | read (haddr : Word) (size : Nat)
  /-- `HostWrite(haddr, size, value)` (R70). -/
  | write (haddr : Word) (size : Nat) (value : Word)
  /-- UMC takes its completion step here if a command is pending (R45); otherwise nothing happens. -/
  | complete
  /-- The reset input of the block (70_reset_and_hazards.md R340). -/
  | reset
  deriving DecidableEq, Repr

end Sys2Proof
end

