-- ==== Sys2Proof/Decode.lean ====
section
/-! DEFINITION. Decoding a command word, a total function on words (30_encoding.md R101), and the
encoder, written from the word column of R104. -/

namespace Sys2Proof

/-- The opcode field `OP = c[7:0]` (R100). -/
def opField (c : Word) : Nat := c.toNat % 2 ^ 8

/-- The bit `c[8]`, `W` of a format-W command (R100). -/
def whichField (c : Word) : Bool := c.getLsbD 8

/-- The bits `c[63:9]`, which must be 0 (R100). -/
def reservedField (c : Word) : Nat := c.toNat / 2 ^ 9

/-- A format-N opcode: bit 8 must be 0 (R101). -/
def formatN (w : Bool) (i : Instr) : Except Illegal Instr :=
  if w then .error .whichOnFormatN else .ok i

/-- The command an opcode names, with `c[8] = w` (R101, R104). -/
def decodeOp (op : Nat) (w : Bool) : Except Illegal Instr :=
  match op with
  | 0x01 => formatN w .addf
  | 0x02 => formatN w .adds
  | 0x03 => formatN w .mulf
  | 0x04 => formatN w .horner
  | 0x05 => formatN w .redp
  | 0x10 => formatN w .clmul
  | 0x11 => .ok (.phfull w)
  | 0x12 => .ok (.phlast w)
  | 0x20 => formatN w .smix
  | 0x30 => formatN w .final
  | 0x40 => formatN w .prepare
  | 0x50 => .ok (.hash w)
  | 0x51 => formatN w .fprint
  | _ => .error .unknownOpcode

/-- `decode(c)` of R101. It depends on no state. -/
def decode (c : Word) : Except Illegal Instr :=
  if reservedField c ≠ 0 then .error .reservedBits
  else decodeOp (opField c) (whichField c)

/-- A format-W word: `OP` with `W` in bit 8 (R100). -/
def wordW (op : Word) (w : Bool) : Word := if w then op ||| 0x100 else op

/-- The command word of a command (R104). -/
def encode : Instr → Word
  | .addf => 0x001
  | .adds => 0x002
  | .mulf => 0x003
  | .horner => 0x004
  | .redp => 0x005
  | .clmul => 0x010
  | .phfull w => wordW 0x011 w
  | .phlast w => wordW 0x012 w
  | .smix => 0x020
  | .final => 0x030
  | .prepare => 0x040
  | .hash w => wordW 0x050 w
  | .fprint => 0x051

/-- The command word whose low `nbits` bits are `w`'s and whose other bits are 0. A command is one
64-bit word, handed to UMC whole by the CMD write (R88, R100), so there is no byte layout to choose. -/
def tableWord (nbits w : Nat) : Word := BitVec.ofNat 64 (w % 2 ^ nbits)

/-- The command the decoder reads from a word of the opcode table; `none` where it is illegal. -/
def decodeTableWord (nbits w : Nat) : Option Instr :=
  match decode (tableWord nbits w) with
  | .ok i => some i
  | .error _ => none

end Sys2Proof
end

