-- ==== Sys2Proof/Config.lean ====
section
/-! DEFINITION. The parameters of UMC (00_scope.md R8, R9) as named constants, and the free values:
opaque constants with no body, standing for what the spec calls unspecified. -/

namespace Sys2Proof.Config

/-- `K = PH_PARAM_COUNT`, PH key words per block (R8). -/
def K : Nat := 32

/-- `T = TOEPLITZ_SHIFT` (R9, decision D2). -/
def T : Nat := 32

/-- `NPH = K + T`, the length of `ph[]` (R9). -/
def nph : Nat := K + T

/-- `BLOCK_SIZE = 8·K` bytes (R8). -/
def blockSize : Nat := 8 * K

/-- `M = 2⁶⁴ − 8`, the working modulus (R8). -/
def M : Nat := 2 ^ 64 - 8

/-- `p = 2⁶¹ − 1`, the final-reduction modulus (R8). -/
def p : Nat := 2 ^ 61 - 1

/-- `C1`, the first mixer multiplier (R8). -/
def C1 : Word := 0xbf58476d1ce4e5b9

/-- `C2`, the second mixer multiplier, also the Finalizer's (R8). -/
def C2 : Word := 0x94d049bb133111eb

/-- The three shift amounts of the Short mixer (R213) and the one of the Finalizer (R240). -/
def mixShift1 : Nat := 30
@[inherit_doc mixShift1] def mixShift2 : Nat := 27
@[inherit_doc mixShift1] def mixShift3 : Nat := 31
@[inherit_doc mixShift1] def finalShift : Nat := 27

/-- The mask of the Long path's tail length, `n & 0xFF` (R224). -/
def tailMask : Word := 0xFF

/-- The longest Short and the longest Medium input, in bytes (R210). -/
def shortMax : Nat := 8
@[inherit_doc shortMax] def mediumMax : Nat := 16

/-- `DMEM_BYTES` in UMC (R9, decision D3: the spec's open parameter at the value UMC takes). Only
`State.reset` uses it: the machine reads the size its DMEM has (log 9). -/
def dmemBytes : Nat := 65536

/-- `PMEM_WORDS = 4 + NPH` (R9); written out so that it can index a `Vector`. -/
abbrev pmemWords : Nat := 68

/-- Bases of the PMEM and DMEM windows in the host address space (20_memory.md R80). -/
def pmemBase : Nat := 0x1000
@[inherit_doc pmemBase] def dmemBase : Nat := 0x10000

/-- FREE VALUE (log 1): word `w` of PMEM as reset number `epoch` leaves it. R50 calls it unspecified,
fixed at reset and stable until written. -/
opaque pmemReset (epoch w : Nat) : Word

/-- FREE VALUE (log 2): byte `a` of DMEM as reset number `epoch` leaves it. R50 calls it unspecified,
fixed at reset and stable until written. -/
opaque dmemReset (epoch a : Nat) : Byte

/-- FREE VALUE (log 3): word `w` of PMEM after the failed PREPARE that drew free value number `draw`.
44_prepare.md R257 calls it unspecified, stable until written. -/
opaque pmemAfterFailure (draw w : Nat) : Word

end Sys2Proof.Config
end

