-- ==== Sys2Proof/Machine/State.lean ====
section
/-! DEFINITION. Everything the spec gives the machine (10_state.md sections 1 to 5, 9), the model's own
fields, the ways a step can stop, and the state after reset. -/

namespace Sys2Proof.Machine

/-- `STATUS.ERR`, complete (60_exceptions.md R301: codes 6 to 15 are never produced, U11). -/
inductive ErrCode
  | none
  | illegalCmd
  | paramInvalid
  | lenRange
  | dataRange
  | prepareFail
  deriving DecidableEq, Repr

/-- The response of a host operation (20_memory.md R70). -/
inductive Resp
  | ok
  | err
  deriving DecidableEq, Repr

/-- What the host observes of one of its operations (R70, R355). -/
inductive HostResult
  | read (resp : Resp) (value : Word)
  | write (resp : Resp)
  deriving DecidableEq, Repr

/-- PMEM: 68 words (10_state.md R30). -/
abbrev Pmem := Vector Word Config.pmemWords

/-- DMEM (10_state.md R34). `size` is its `DMEM_BYTES`, the open parameter of R9, which no step changes
(log 9). `cells` lists each byte written since the last reset, addresses strictly rising; `epoch` says
which reset fixed the unspecified value of the others (log 2). -/
structure Memory where
  size : Nat
  epoch : Nat
  cells : List Host.Cell
  deriving DecidableEq, Repr

/-- The machine. The first six lines are the spec's state; `events`, `seen` and `fresh` are the
model's own (logs 4, 5, 6). -/
structure State where
  a : Word
  b : Word
  acc : Word
  m0 : Word
  m1 : Word
  seed : Word
  dptr : Word
  dlen : Word
  res0 : Word
  res1 : Word
  cmd : Word
  /-- `STATUS.BUSY`: a command is pending (R28). -/
  busy : Bool
  /-- `STATUS.DONE` (R28). -/
  done : Bool
  /-- `STATUS.PVALID` (R28, R33). -/
  pvalid : Bool
  /-- `STATUS.ERR` (R28, R301). -/
  err : ErrCode
  pmem : Pmem
  dmem : Memory
  /-- The interleaving still to come (R85, log 5). -/
  events : List Event
  /-- What the host has observed, oldest first (R355, log 6). -/
  seen : List HostResult
  /-- Free values drawn so far (log 4). -/
  fresh : Nat
  deriving DecidableEq, Repr

/-- Reasons a step stops with a fault. There are none: the spec's errors are completions with
`STATUS.ERR ≠ 0` (R300), a refused host operation answers `resp = ERR` (R70), and "Nothing in UMC is
`stuck`" (93_implementation_defined.md). -/
inductive Fault
  deriving DecidableEq, Repr

/-- Reasons a step is refused. -/
inductive Refusal
  /-- Raised by an arm of `exec` whose instruction has no meaning yet; no arm raises it. Safe. -/
  | notModelled (mnemonic : String)
  deriving DecidableEq, Repr

/-- The outcome of one step. -/
abbrev Outcome := Host.Outcome State Fault Refusal

/-- What is done next: nothing of UMC's own (the new state is given), or the completion step of the
pending command on the given state. -/
inductive Move
  | settled (s : State)
  | completes (s : State)
  deriving DecidableEq, Repr

/-- PMEM with word `w` holding `f w`. -/
def pmemOf (f : Nat → Word) : Pmem := ⟨((List.range Config.pmemWords).map f).toArray, by simp⟩

/-- A machine with `dmemBytes` bytes of DMEM (R9) right after the reset that draws free value number `n`
(10_state.md R50, R340): every register, CMD and STATUS 0, nothing pending, PMEM and DMEM unspecified. -/
def State.resetAt (dmemBytes n : Nat) : State where
  a := 0
  b := 0
  acc := 0
  m0 := 0
  m1 := 0
  seed := 0
  dptr := 0
  dlen := 0
  res0 := 0
  res1 := 0
  cmd := 0
  busy := false
  done := false
  pvalid := false
  err := .none
  pmem := pmemOf (Config.pmemReset n)
  dmem := ⟨dmemBytes, n, []⟩
  events := []
  seen := []
  fresh := n

/-- UMC right after its first reset (R50), with the DMEM_BYTES it takes (R9). -/
def State.reset : State := State.resetAt Config.dmemBytes 0

end Sys2Proof.Machine
end

