-- ==== Sys2Proof/Machine/Operands.lean ====
section
/-! DEFINITION. How a command reaches its operands: halves of wide values, bytes of words, the words of
PMEM by name, the key view and the multipliers that `W` selects. -/

namespace Sys2Proof.Machine

/-- `lo64(v)` of a 128-bit value (00_scope.md R11). -/
def lo64 (v : DWord) : Word := v.extractLsb' 0 64

/-- `hi64(v)` of a 128-bit value (R11). -/
def hi64 (v : DWord) : Word := v.extractLsb' 64 64

/-- `zext_128(v)` (R12). -/
def zext128 (v : Word) : DWord := v.zeroExtend 128

/-- Byte `j` of a word, `v[8j+7:8j]` (20_memory.md R60). -/
def byteOf (v : Word) (j : Nat) : Byte := v.extractLsb' (8 * j) 8

/-- The word with byte lane `j` replaced (20_memory.md R73, decision D34). -/
def setByte (v : Word) (j : Nat) (b : Byte) : Word :=
  (v &&& ~~~((0xFF : Word) <<< (8 * j))) ||| ((b.zeroExtend 64 : Word) <<< (8 * j))

/-- `PMEM[w]` (10_state.md R30). No command and no host access names a word `w ≥ 68` (20_memory.md
R67, R71); the value there is never used (log 13). -/
def Pmem.word (p : Pmem) (w : Nat) : Word := p[w]?.getD 0

/-- `PMEM[w] <- v` (R12). -/
def Pmem.setWord (p : Pmem) (w : Nat) (v : Word) : Pmem := p.setIfInBounds w v

/-- `PMEM[w], PMEM[w+1], … <- vs`. -/
def Pmem.setWords (p : Pmem) (w : Nat) : List Word → Pmem
  | [] => p
  | v :: vs => Pmem.setWords (p.setWord w v) (w + 1) vs

/-- `poly[i][j] = PMEM[2·i + j]` (10_state.md R31). -/
def Pmem.poly (p : Pmem) (i j : Nat) : Word := p.word (2 * i + j)

/-- `ph[i] = PMEM[4 + i]` (10_state.md R31). -/
def Pmem.ph (p : Pmem) (i : Nat) : Word := p.word (4 + i)

/-- All of `ph[0 .. K+T)`, in order. -/
def Pmem.keys (p : Pmem) : List Word := (List.range Config.nph).map p.ph

/-- `shift = 0 if which == 0 else T` (30_encoding.md R102). -/
def shiftOf (w : Bool) : Nat := if w then Config.T else 0

/-- `idx = 0 if which == 0 else 1` (30_encoding.md R102). -/
def rowOf (w : Bool) : Nat := if w then 1 else 0

/-- A key view `k[i]` (41_ph.md R185). -/
abbrev KeyView := Nat → Word

/-- The key view of `which = W`: `k[i] = ph[shift + i]` (41_ph.md R185). -/
def Pmem.view (p : Pmem) (w : Bool) : KeyView := fun i => p.ph (shiftOf w + i)

/-- The multipliers of `which = W`: `m0 = poly[idx][0]`, `m1 = poly[idx][1]` (45_dispatch.md R281). -/
def Pmem.mult0 (p : Pmem) (w : Bool) : Word := p.poly (rowOf w) 0
@[inherit_doc Pmem.mult0] def Pmem.mult1 (p : Pmem) (w : Bool) : Word := p.poly (rowOf w) 1

end Sys2Proof.Machine
end

