-- ==== Sys2Proof/Machine/Ops.lean ====
section
/-! DEFINITION. The shared operations: reading and writing DMEM, accepting a command, completing one,
reporting an error (the one operation every error goes through), the checks before a command. -/

namespace Sys2Proof.Machine

/-! ## DMEM -/

/-- What an unlisted address reads as: the unspecified value it was left with by the last reset
(10_state.md R50, log 2). -/
def Memory.unlisted (m : Memory) (a : Nat) : Byte := Config.dmemReset m.epoch a

/-- The listed byte at an address. -/
def lookupCell (a : Nat) : List Host.Cell → Option Byte
  | [] => none
  | (k, v) :: rest => if a = k then some v else lookupCell a rest

/-- The list with `a` holding `b`, in rising order of addresses. -/
def insertCell (a : Nat) (b : Byte) : List Host.Cell → List Host.Cell
  | [] => [(a, b)]
  | (k, v) :: rest =>
    if a < k then (a, b) :: (k, v) :: rest
    else if a = k then (a, b) :: rest
    else (k, v) :: insertCell a b rest

/-- `DMEM[a]`. -/
def Memory.read (m : Memory) (a : Nat) : Byte := (lookupCell a m.cells).getD (m.unlisted a)

/-- `DMEM[a] <- b`. -/
def Memory.write (m : Memory) (a : Nat) (b : Byte) : Memory :=
  { m with cells := insertCell a b m.cells }

/-- The addresses rise strictly from `low` on and lie below `size`. -/
def cellsWf (size low : Nat) : List Host.Cell → Bool
  | [] => true
  | (k, _) :: rest => decide (low ≤ k) && decide (k < size) && cellsWf size (k + 1) rest

/-- The canonical form: strictly rising addresses of DMEM, one entry for each byte written since the
last reset. An unlisted byte holds no written value, so no entry equals what it holds (log 2). -/
def Memory.wf (m : Memory) : Bool := cellsWf m.size 0 m.cells

/-- `MemRead(addr, n)`, little-endian, at any alignment (20_memory.md R62, R63). -/
def memRead (m : Memory) (addr : Nat) : Nat → Nat
  | 0 => 0
  | n + 1 => (m.read addr).toNat + 2 ^ 8 * memRead m (addr + 1) n

/-- `MemRead(addr, 8)` as a word. -/
def memWord (m : Memory) (addr : Nat) : Word := wrap64 (memRead m addr 8)

/-- `MemWrite(a, n, v)` (20_memory.md R73): `DMEM[a + j] <- v[8j+7:8j]` for `0 ≤ j < n`. -/
def memWrite (m : Memory) (a : Nat) (v : Word) : Nat → Memory
  | 0 => m
  | n + 1 => (memWrite m a v n).write (a + n) (byteOf v n)

/-! ## Commands -/

/-- Accepting a CMD write (10_state.md R44). It clears the error of the last command; nothing else
returns from an error (60_exceptions.md R300). -/
def State.acceptCommand (s : State) (v : Word) : State :=
  { s with cmd := v, busy := true, done := false, err := .none }

/-- The pending command (10_state.md R45: the completion step decodes CMD). -/
def State.pendingCommand (s : State) : Except Illegal Instr := decode s.cmd

/-- `raise Err(code)` (60_exceptions.md R300): the one way an error is reported. Nothing is saved and
nothing is redirected. -/
def State.raiseErr (s : State) (e : ErrCode) : State :=
  { s with err := e, busy := false, done := true }

/-- The end of a command that succeeds (10_state.md R26, R45): both results written, `ERR = 0`. -/
def State.finish (s : State) (r0 r1 : Word) : State :=
  { s with res0 := r0, res1 := r1, err := .none, busy := false, done := true }

/-- The end of a command whose checks give `e`: the error, or else the result `t`, which is then the
whole effect. All checks come before any read or write (60_exceptions.md R302), so `t` is not evaluated
where a check fails. -/
def State.checked (s : State) (e : ErrCode) (t : Unit → State) : State :=
  match e with
  | .none => t ()
  | e => s.raiseErr e

/-! ## Checks, in the order of 60_exceptions.md R302 -/

/-- The first error of a list of checks; the later ones are not reported. -/
def firstError : List ErrCode → ErrCode
  | [] => .none
  | .none :: rest => firstError rest
  | e :: _ => e

/-- PARAM_INVALID unless PVALID (R301). -/
def checkParam (pvalid : Bool) : ErrCode := if pvalid then .none else .paramInvalid

/-- LEN_RANGE unless `1 ≤ n ≤ BLOCK_SIZE` (R301). -/
def checkLen (n : Nat) : ErrCode :=
  if n = 0 ∨ Config.blockSize < n then .lenRange else .none

/-- DATA_RANGE unless the footprint ends in `[least, dmemBytes]`, in exact arithmetic (20_memory.md
R65). `dmemBytes` is the parameter of R9; the checks below pass the size DMEM has. -/
def checkRange (dmemBytes least stop : Nat) : ErrCode :=
  if stop < least ∨ dmemBytes < stop then .dataRange else .none

/-- The checks of PHFULL (41_ph.md R184). -/
def State.checkPhfull (s : State) : ErrCode :=
  firstError [checkParam s.pvalid,
    checkRange s.dmem.size 0 (s.dptr.toNat + Config.blockSize)]

/-- The checks of PHLAST (41_ph.md R188): its tail read starts 16 bytes before the end. -/
def State.checkPhlast (s : State) : ErrCode :=
  firstError [checkParam s.pvalid, checkLen s.dlen.toNat,
    checkRange s.dmem.size 16 (s.dptr.toNat + s.dlen.toNat)]

/-- The checks of HASH and FPRINT (45_dispatch.md R283, R284). -/
def State.checkHash (s : State) : ErrCode :=
  firstError [checkParam s.pvalid,
    checkRange s.dmem.size 0 (s.dptr.toNat + s.dlen.toNat)]

end Sys2Proof.Machine
end

