-- ==== Sys2Proof/Machine/Finalizer.lean ====
section
/-! DEFINITION. The mixers, on 64-bit words with wrapping products and logical shifts (42_lengthclass.md
R214): the Finalizer and its command FINAL (43_finalizer.md), the Short mixer and its command SMIX
(42_lengthclass.md). The constant of a product stands first: the kernel then leaves a product of it with
a variable alone, where it would unfold one with the literal second. -/

namespace Sys2Proof.Machine

/-- `v ^= v >> n`. -/
def xorShift (v : Word) (n : Nat) : Word := v ^^^ (v >>> n)

/-- `finalizer(x)` (R240). -/
def finalizer (x : Word) : Word := Config.C2 * xorShift x Config.finalShift

/-- `short_mix(v, seed')` (R213). -/
def shortMix (v seedp : Word) : Word :=
  let v1 := xorShift v Config.mixShift1
  let v2 := Config.C1 * v1
  let v3 := (v2 ^^^ seedp) ^^^ (v2 >>> Config.mixShift2)
  let v4 := Config.C2 * v3
  xorShift v4 Config.mixShift3

/-- FINAL (R241). -/
def execFinal (s : State) : Outcome := .next (s.finish (finalizer s.a) 0)

/-- SMIX (R215): A is `v`, B is `seed'`. -/
def execSmix (s : State) : Outcome := .next (s.finish (shortMix s.a s.b) 0)

end Sys2Proof.Machine
end

