-- ==== Sys2Proof/Machine/ModArith.lean ====
section
/-! DEFINITION. ModArith (40_modarith.md): the adders, the multiplier, the reducer, the Horner update,
and the commands ADDF, ADDS, MULF, HORNER, REDP. Every function is total on words (R140). -/

namespace Sys2Proof.Machine

/-- `add_fast` (R142): on overflow add 8 to the low 64 bits, that addition wrapping. -/
def addFast (x y : Word) : Word :=
  let s := x.toNat + y.toNat
  if wordSize ≤ s then wrap64 (s % wordSize + 8) else wrap64 s

/-- "Reduces mod M" of a number below `2·M` (R145): one conditional subtraction. -/
def reduceM (w : Nat) : Nat := if Config.M ≤ w then w - Config.M else w

/-- `add_slow` (R145). -/
def addSlow (x y : Word) : Word :=
  let s := x.toNat + y.toNat
  let sum := s % wordSize
  let fixup := if wordSize ≤ s then 8 else 0
  if sum < wordSize - 16 then wrap64 (sum + fixup)
  else wrap64 (reduceM (reduceM sum + fixup))

/-- `mul_fast` (R150): `8·hi` is the 64-bit word `wrap64(8·hi)`. -/
def mulFast (m x : Word) : Word :=
  let prod := m.toNat * x.toNat
  addFast (wrap64 (prod % wordSize)) (wrap64 (8 * (prod / wordSize)))

/-- `reduce_p` (R155): the remainder modulo `p = 2⁶¹ − 1`. -/
def reduceP (x : Word) : Word := wrap64 (x.toNat % Config.p)

/-- `horner_double_update` (R160). -/
def hornerDoubleUpdate (acc m0 m1 x y : Word) : Word :=
  addSlow (mulFast m0 (addFast acc x)) (mulFast m1 y)

/-- ADDF (R143). -/
def execAddf (s : State) : Outcome := .next (s.finish (addFast s.a s.b) 0)

/-- ADDS (R147). -/
def execAdds (s : State) : Outcome := .next (s.finish (addSlow s.a s.b) 0)

/-- MULF (R152): A is the multiplier `m`, B is `x`. -/
def execMulf (s : State) : Outcome := .next (s.finish (mulFast s.a s.b) 0)

/-- HORNER (R162): the result goes to ACC as well as to RES0; all operands are read first. -/
def execHorner (s : State) : Outcome :=
  let r := hornerDoubleUpdate s.acc s.m0 s.m1 s.a s.b
  .next { s.finish r 0 with acc := r }

/-- REDP (R157). -/
def execRedp (s : State) : Outcome := .next (s.finish (reduceP s.a) 0)

end Sys2Proof.Machine
end

