-- ==== Sys2Proof/Machine/Ph.lean ====
section
/-! DEFINITION. PH (41_ph.md): the carry-less multiplier, block compression, and the commands CLMUL,
PHFULL, PHLAST. -/

namespace Sys2Proof.Machine

/-- The XOR of `a << j` over the set bits `j < n` of `b`. -/
def clmulBits (a : DWord) (b : Word) : Nat → DWord
  | 0 => 0
  | n + 1 => clmulBits a b n ^^^ (if b.getLsbD n then a <<< n else 0)

/-- `CLMUL64(a, b)` (R180): bit `i` of a word is the coefficient of `Xⁱ`. -/
@[irreducible] def clmul64 (a b : Word) : DWord := clmulBits (zext128 a) b 64

/-- Mixing the pair of data words `x`, `y` with the key words `k[i]`, `k[i+1]` (R183, R189). -/
def phMix (k : KeyView) (acc : DWord) (i : Nat) (x y : Word) : DWord :=
  acc ^^^ clmul64 (x ^^^ k i) (y ^^^ k (i + 1))

/-- The first `n` pairs of the block at `base`, the loop `i = 0, 2, …, 2(n−1)` of R183 and R186. -/
def phPairs (m : Memory) (k : KeyView) (seed : Word) (base : Nat) : Nat → DWord
  | 0 => zext128 seed
  | n + 1 =>
    phMix k (phPairs m k seed base n) (2 * n)
      (memWord m (base + 8 * (2 * n))) (memWord m (base + 8 * (2 * n) + 8))

/-- `ph_full_block` (R183): all `K/2` pairs. Its halves are `bits[0]`, `bits[1]`. -/
@[irreducible] def phFullBlock (m : Memory) (k : KeyView) (seed : Word) (base : Nat) : DWord :=
  phPairs m k seed base (Config.K / 2)

/-- `ph_last_block` (R186), for `1 ≤ n ≤ 256`: the full pairs, then the 16 bytes that end the block,
overlapping what precedes them when the tail is short. -/
@[irreducible] def phLastBlock (m : Memory) (k : KeyView) (seed : Word) (base n : Nat) : DWord :=
  let remaining := 1 + (n - 1) % 16
  let endFullPairs := (n - remaining) / 8
  phMix k (phPairs m k seed base (endFullPairs / 2)) endFullPairs
    (memWord m (base + n - 16)) (memWord m (base + n - 8))

/-- The end of a command with a 128-bit result: the low half to RES0, the high half to RES1
(10_state.md R26). -/
def State.finishWide (s : State) (r : DWord) : State := s.finish (lo64 r) (hi64 r)

/-- CLMUL (R181). -/
def execClmul (s : State) : Outcome := .next (s.finishWide (clmul64 s.a s.b))

/-- PHFULL (R184): the seed is used as given, DLEN is ignored. -/
def execPhfull (w : Bool) (s : State) : Outcome :=
  .next (s.checked s.checkPhfull fun _ =>
    s.finishWide (phFullBlock s.dmem (s.pmem.view w) s.seed s.dptr.toNat))

/-- PHLAST (R188): the seed is used as given. -/
def execPhlast (w : Bool) (s : State) : Outcome :=
  .next (s.checked s.checkPhlast fun _ =>
    s.finishWide (phLastBlock s.dmem (s.pmem.view w) s.seed s.dptr.toNat s.dlen.toNat))

end Sys2Proof.Machine
end

