-- ==== Sys2Proof/Machine/Hash.lean ====
section
/-! DEFINITION. The length classes (42_lengthclass.md) and the top-level dispatch with its commands HASH
and FPRINT (45_dispatch.md). -/

namespace Sys2Proof.Machine

/-- `v = (v_hi << 32) | ((v_lo + v_hi) mod 2³²)` (R211). -/
def packHalves (vLo vHi : Nat) : Word :=
  (wrap64 vHi <<< 32) ||| wrap64 ((vLo + vHi) % 2 ^ 32)

/-- `vec_to_u64(base, n)`, for `0 ≤ n ≤ 8` (R211). -/
def vecToU64 (m : Memory) (base n : Nat) : Word :=
  if 4 ≤ n then packHalves (memRead m base 4) (memRead m (base + n - 4) 4)
  else
    packHalves (if n.testBit 0 then memRead m base 1 else 0)
      (if n.testBit 1 then memRead m (base + n - 2) 2 else 0)

/-- `short` (R216), for `0 ≤ n ≤ 8`. -/
def shortHash (m : Memory) (k : KeyView) (seed : Word) (base n : Nat) : Word :=
  shortMix (vecToU64 m base n) (seed ^^^ k n)

/-- `medium` (R220), for `9 ≤ n ≤ 16`. -/
def mediumHash (m : Memory) (k : KeyView) (m0 m1 seed : Word) (base n : Nat) : Word :=
  let acc := phMix k (zext128 (seed ^^^ wrap64 n)) 0 (memWord m base) (memWord m (base + n - 8))
  finalizer (hornerDoubleUpdate 0 m0 m1 (lo64 acc) (hi64 acc))

/-- Folding one PH result into the Long path's accumulator (R224). -/
def foldPh (m0 m1 acc : Word) (c : DWord) : Word := hornerDoubleUpdate acc m0 m1 (lo64 c) (hi64 c)

/-- The loop `while n > BLOCK_SIZE` of R224 over `(acc, base, n)`, at most `fuel` times. -/
def longLoop (m : Memory) (k : KeyView) (m0 m1 seed : Word) :
    Nat → Word → Nat → Nat → Word × Nat × Nat
  | 0, acc, base, n => (acc, base, n)
  | fuel + 1, acc, base, n =>
    if Config.blockSize < n then
      longLoop m k m0 m1 seed fuel (foldPh m0 m1 acc (phFullBlock m k seed base))
        (base + Config.blockSize) (n - Config.blockSize)
    else (acc, base, n)

/-- `long` (R224), for `n > 16`. Each turn of the loop takes a block off `n`, so `n / BLOCK_SIZE` turns
are enough for it to end. -/
def longHash (m : Memory) (k : KeyView) (m0 m1 seed : Word) (base n : Nat) : Word :=
  let (acc, base', n') := longLoop m k m0 m1 seed (n / Config.blockSize) 0 base n
  let seedp := seed ^^^ (wrap64 n' &&& Config.tailMask)
  finalizer (foldPh m0 m1 acc (phLastBlock m k seedp base' n'))

/-- `hash(seed, which, base, n)` (45_dispatch.md R280), on the given DMEM and PMEM. -/
def hashInput (m : Memory) (p : Pmem) (seed : Word) (w : Bool) (base n : Nat) : Word :=
  if n ≤ Config.shortMax then shortHash m (p.view w) seed base n
  else if n ≤ Config.mediumMax then
    mediumHash m (p.view w) (p.mult0 w) (p.mult1 w) seed base n
  else longHash m (p.view w) (p.mult0 w) (p.mult1 w) seed base n

/-- `hashInput` on the registers of a state. -/
def State.digest (s : State) (w : Bool) : Word :=
  hashInput s.dmem s.pmem s.seed w s.dptr.toNat s.dlen.toNat

/-- HASH (R283). -/
def execHash (w : Bool) (s : State) : Outcome :=
  .next (s.checked s.checkHash fun _ => s.finish (s.digest w) 0)

/-- FPRINT (R282, R284): the digest of view 0, then that of view 1. -/
def execFprint (s : State) : Outcome :=
  .next (s.checked s.checkHash fun _ => s.finish (s.digest false) (s.digest true))

end Sys2Proof.Machine
end

