-- ==== Sys2Proof/Machine/Prepare.lean ====
section
/-! DEFINITION. ParamSchedule.prepare, the key-schedule sanitiser, and the command PREPARE
(44_prepare.md). -/

namespace Sys2Proof.Machine

/-- "Mask to 61 bits" (R252). -/
def mask61 (f : Word) : Word := f &&& wrap64 (2 ^ 61 - 1)

/-- "Accept iff f ∈ (0, 2⁶¹−1)" (R252). -/
def acceptable (f : Word) : Bool := f != 0 && decide (f.toNat < Config.p)

/-- One row of step 1 (R252): mask; if not acceptable, consume a reservoir word and retry. Answers the
accepted multiplier and what is left of the reservoir, `none` when a word is demanded of an empty one. -/
def pickMultiplier (f : Word) : List Word → Option (Word × List Word)
  | [] => if acceptable (mask61 f) then some (mask61 f, []) else none
  | r :: rs => if acceptable (mask61 f) then some (mask61 f, r :: rs) else pickMultiplier r rs

/-- `poly[i][0]` for the accepted `f`: `(f·f mod M) mod p` (R252). -/
def squareP (f : Word) : Word := reduceP (mulFast f f)

/-- One entry of step 2 (R253): while it equals an earlier key word, replace it by the next reservoir
word, whole and unmasked. -/
def pickKey (earlier : List Word) (key : Word) : List Word → Option (Word × List Word)
  | [] => if key ∈ earlier then none else some (key, [])
  | r :: rs => if key ∈ earlier then pickKey earlier r rs else some (key, r :: rs)

/-- Step 2 (R253) over the key words in order; `earlier` holds the already repaired ones. -/
def repairKeys (earlier : List Word) : List Word → List Word → Option (List Word)
  | [], _ => some []
  | key :: keys, reservoir =>
    match pickKey earlier key reservoir with
    | none => none
    | some (key', reservoir') =>
      match repairKeys (earlier ++ [key']) keys reservoir' with
      | none => none
      | some keys' => some (key' :: keys')

/-- `prepare()` (R255): the repaired PMEM, `none` for `false`. The reservoir is copied at the start
and one index runs through both steps (R251). -/
def prepare (p : Pmem) : Option Pmem :=
  match pickMultiplier (p.poly 0 1) [p.poly 0 0, p.poly 1 0] with
  | none => none
  | some (f0, res) =>
    match pickMultiplier (p.poly 1 1) res with
    | none => none
    | some (f1, res') =>
      match repairKeys [] p.keys res' with
      | none => none
      | some keys => some (p.setWords 0 (squareP f0 :: f0 :: squareP f1 :: f1 :: keys))

/-- The end of a PREPARE that fails (R256, R257, 60_exceptions.md R300): ERR 5, PVALID and both
results 0, every word of PMEM unspecified (log 3). -/
def State.failPrepare (s : State) : State :=
  { s.raiseErr .prepareFail with
    res0 := 0, res1 := 0, pvalid := false,
    pmem := pmemOf (Config.pmemAfterFailure s.fresh), fresh := s.fresh + 1 }

/-- The end of a PREPARE that succeeds with the ParamSet `p` (R256). -/
def State.passPrepare (s : State) (p : Pmem) : State :=
  { s.finish 1 0 with pvalid := true, pmem := p }

/-- PREPARE (R256). -/
def execPrepare (s : State) : Outcome :=
  .next (match prepare s.pmem with
    | some p => s.passPrepare p
    | none => s.failPrepare)

end Sys2Proof.Machine
end

