-- ==== Sys2Proof/Machine/Dispatch.lean ====
section
/-! DEFINITION. The meaning of each command: what its completion step does (10_state.md R45, R46). -/

namespace Sys2Proof.Machine

def exec (i : Instr) (s : State) : Host.Outcome State Fault Refusal :=
  match i with
  | .addf => Sys2Proof.Machine.execAddf s
  | .adds => Sys2Proof.Machine.execAdds s
  | .mulf => Sys2Proof.Machine.execMulf s
  | .horner => Sys2Proof.Machine.execHorner s
  | .redp => Sys2Proof.Machine.execRedp s
  | .clmul => Sys2Proof.Machine.execClmul s
  | .phfull w => Sys2Proof.Machine.execPhfull w s
  | .phlast w => Sys2Proof.Machine.execPhlast w s
  | .smix => Sys2Proof.Machine.execSmix s
  | .final => Sys2Proof.Machine.execFinal s
  | .prepare => Sys2Proof.Machine.execPrepare s
  | .hash w => Sys2Proof.Machine.execHash w s
  | .fprint => Sys2Proof.Machine.execFprint s

end Sys2Proof.Machine
end

