-- ==== Sys2Proof/Machine/Flags.lean ====
section
/-! DEFINITION. The STATUS and ID words. UMC has no condition codes: STATUS holds its only status bits
(10_state.md R35). -/

namespace Sys2Proof.Machine

/-- The number of an error code (60_exceptions.md R301). -/
def ErrCode.code : ErrCode → Nat
  | .none => 0
  | .illegalCmd => 1
  | .paramInvalid => 2
  | .lenRange => 3
  | .dataRange => 4
  | .prepareFail => 5

/-- A bit as a number. -/
def bit (b : Bool) : Nat := if b then 1 else 0

/-- The STATUS register as read (10_state.md R28): BUSY in bit 0, DONE in bit 1, PVALID in bit 2, ERR in
bits 7:4, bit 3 and bits 63:8 zero. -/
def State.status (s : State) : Word :=
  wrap64 (bit s.busy + 2 * bit s.done + 4 * bit s.pvalid + 16 * s.err.code)

/-- The constant ID register (10_state.md R27): `K` in bits 7:0, `T` in bits 15:8, the rest 0. -/
def idWord : Word := wrap64 (Config.K + 256 * Config.T)

end Sys2Proof.Machine
end

