-- ==== Sys2Proof/Machine/HostPort.lean ====
section
/-! DEFINITION. The host port (20_memory.md sections 3, 4): the address map, HostRead, HostWrite; the
reset input (70_reset_and_hazards.md R340); and how the events of an interleaving act (R85). -/

namespace Sys2Proof.Machine

/-- The offset of a register in the REG window (R80). -/
def regOffset : Reg → Nat
  | .id => 0x00
  | .cmd => 0x08
  | .status => 0x10
  | .a => 0x18
  | .b => 0x20
  | .acc => 0x28
  | .m0 => 0x30
  | .m1 => 0x38
  | .seed => 0x40
  | .dptr => 0x48
  | .dlen => 0x50
  | .res0 => 0x58
  | .res1 => 0x60

/-- All registers, in address order. -/
def allRegs : List Reg :=
  [.id, .cmd, .status, .a, .b, .acc, .m0, .m1, .seed, .dptr, .dlen, .res0, .res1]

/-- What a legal host access touches. -/
inductive Place
  | reg (r : Reg)
  | pmemWord (w : Nat)
  | pmemByte (w j : Nat)
  | dmemWord (a : Nat)
  | dmemByte (a : Nat)
  deriving DecidableEq, Repr

/-- The register at an offset of the REG window, if there is one (R80). -/
def regAt (offset : Nat) : Option Reg := allRegs.find? fun r => regOffset r == offset

/-- Size-8 accesses (R71): a register at its exact offset, an aligned word of PMEM or of DMEM. -/
def placeWord (dmemBytes haddr : Nat) : Option Place :=
  if haddr % 8 ≠ 0 then none
  else if Config.pmemBase ≤ haddr ∧ haddr < Config.pmemBase + 8 * Config.pmemWords then
    some (.pmemWord ((haddr - Config.pmemBase) / 8))
  else if Config.dmemBase ≤ haddr ∧ haddr < Config.dmemBase + dmemBytes then
    some (.dmemWord (haddr - Config.dmemBase))
  else
    match regAt haddr with
    | some r => some (.reg r)
    | none => none

/-- Size-1 accesses (R71): any byte of PMEM or of DMEM, no register. -/
def placeByte (dmemBytes haddr : Nat) : Option Place :=
  if Config.pmemBase ≤ haddr ∧ haddr < Config.pmemBase + 8 * Config.pmemWords then
    some (.pmemByte ((haddr - Config.pmemBase) / 8) ((haddr - Config.pmemBase) % 8))
  else if Config.dmemBase ≤ haddr ∧ haddr < Config.dmemBase + dmemBytes then
    some (.dmemByte (haddr - Config.dmemBase))
  else none

/-- What an access of `size` bytes at `haddr` touches; `none` where the map has nothing there or the
size or alignment is not allowed (R71, U8). -/
def place (dmemBytes haddr size : Nat) : Option Place :=
  if size = 8 then placeWord dmemBytes haddr
  else if size = 1 then placeByte dmemBytes haddr
  else none

/-- The value of a register as the host reads it (R71). -/
def State.readReg (s : State) : Reg → Word
  | .id => idWord
  | .cmd => s.cmd
  | .status => s.status
  | .a => s.a
  | .b => s.b
  | .acc => s.acc
  | .m0 => s.m0
  | .m1 => s.m1
  | .seed => s.seed
  | .dptr => s.dptr
  | .dlen => s.dlen
  | .res0 => s.res0
  | .res1 => s.res1

/-- A host write to a register (R71, R73); `none` for the read-only ones. Writing CMD starts a command
(10_state.md R29, R44). -/
def State.writeReg (s : State) (r : Reg) (v : Word) : Option State :=
  match r with
  | .id => none
  | .cmd => some (s.acceptCommand v)
  | .status => none
  | .a => some { s with a := v }
  | .b => some { s with b := v }
  | .acc => some { s with acc := v }
  | .m0 => some { s with m0 := v }
  | .m1 => some { s with m1 := v }
  | .seed => some { s with seed := v }
  | .dptr => some { s with dptr := v }
  | .dlen => some { s with dlen := v }
  | .res0 => none
  | .res1 => none

/-- The value of a legal read, zero-extended, little-endian (R60, R71). -/
def State.readPlace (s : State) : Place → Word
  | .reg r => s.readReg r
  | .pmemWord w => s.pmem.word w
  | .pmemByte w j => (byteOf (s.pmem.word w) j).zeroExtend 64
  | .dmemWord a => memWord s.dmem a
  | .dmemByte a => (s.dmem.read a).zeroExtend 64

/-- PMEM word `w` written by the host: PVALID is withdrawn, whatever is stored (10_state.md R33). -/
def State.writePmem (s : State) (w : Nat) (v : Word) : State :=
  { s with pmem := s.pmem.setWord w v, pvalid := false }

/-- The effect of a write to a place (R73); `none` where the place is read-only. -/
def State.writePlace (s : State) (at_ : Place) (v : Word) : Option State :=
  match at_ with
  | .reg r => s.writeReg r v
  | .pmemWord w => some (s.writePmem w v)
  | .pmemByte w j => some (s.writePmem w (setByte (s.pmem.word w) j (byteOf v 0)))
  | .dmemWord a => some { s with dmem := memWrite s.dmem a v 8 }
  | .dmemByte a => some { s with dmem := memWrite s.dmem a v 1 }

/-- `HostRead(haddr, size)` (R70, R71): legal at any time, no effect on the state. -/
def State.hostRead (s : State) (haddr : Word) (size : Nat) : Resp × Word :=
  match place s.dmem.size haddr.toNat size with
  | none => (.err, 0)
  | some at_ => (.ok, s.readPlace at_)

/-- `HostWrite(haddr, size, value)` (R70 to R73): refused while BUSY, at any address. -/
def State.hostWrite (s : State) (haddr : Word) (size : Nat) (value : Word) : Resp × State :=
  if s.busy then (.err, s)
  else
    match place s.dmem.size haddr.toNat size with
    | none => (.err, s)
    | some at_ =>
      match s.writePlace at_ value with
      | none => (.err, s)
      | some t => (.ok, t)

/-- The reset input (R340, U23): a pending command is discarded; the memories are unspecified anew. The
host's own side, its script and what it has seen, goes on (log 8), and DMEM keeps its size. -/
def State.resetInput (s : State) : State :=
  { State.resetAt s.dmem.size (s.fresh + 1) with events := s.events, seen := s.seen }

/-- The host observes a result (R355). -/
def State.observe (s : State) (r : HostResult) : State := { s with seen := s.seen ++ [r] }

/-- A host read, with its observation. -/
def State.doRead (s : State) (haddr : Word) (size : Nat) : State :=
  s.observe (.read (s.hostRead haddr size).1 (s.hostRead haddr size).2)

/-- A host write, with its observation. -/
def State.doWrite (s : State) (haddr : Word) (size : Nat) (value : Word) : State :=
  (s.hostWrite haddr size value).2.observe (.write (s.hostWrite haddr size value).1)

/-- UMC's completion step, enabled exactly when BUSY (10_state.md R45); else nothing happens. -/
def State.offerCompletion (s : State) : Move := if s.busy then .completes s else .settled s

/-- The next move of the interleaving: the first event, or the completion step once no event is left
(R351(a): a pending command is eventually completed). -/
def State.nextMove (s : State) : Move :=
  match s.events with
  | [] => s.offerCompletion
  | .complete :: es => State.offerCompletion { s with events := es }
  | .read haddr size :: es => .settled (State.doRead { s with events := es } haddr size)
  | .write haddr size v :: es => .settled (State.doWrite { s with events := es } haddr size v)
  | .reset :: es => .settled (State.resetInput { s with events := es })

end Sys2Proof.Machine
end

