-- ==== Sys2Proof/Machine/Step.lean ====
section
/-! DEFINITION. One step of the machine: the next host operation, or UMC's completion step (10_state.md
R45, 20_memory.md R85). -/

namespace Sys2Proof.Machine

/-- The completion step (10_state.md R45): decode CMD; an illegal word reports ILLEGAL_CMD and changes
nothing else (30_encoding.md R101, R105); a command performs its rule. -/
def completion (s : State) : Outcome :=
  match s.pendingCommand with
  | .ok i => exec i s
  | .error _ => .next (s.raiseErr .illegalCmd)

/-- One step. With no event left and no command pending UMC waits: the state stays (R340, log 5). -/
def step (s : State) : Host.Outcome State Fault Refusal :=
  match s.nextMove with
  | .settled t => .next t
  | .completes t => completion t

/-- The state in which the command word `w` has just been accepted and its completion step is the next
move: the accepted CMD write of R44 (log 7). -/
def State.withFetchWord (s : State) (nbits w : Nat) : State :=
  { s.acceptCommand (tableWord nbits w) with
    events := match s.events with
      | [] => []
      | es => .complete :: es }

end Sys2Proof.Machine
end

