-- ==== Sys2Proof/WellFormed.lean ====
section
/-! DEFINITION. What is well formed: a command word (by the match and mask rows of R104, a second
description beside the decoder's R101), a host operation (R70), a choice of the parameters (R9).
Every value of `Instr` is well formed: its one operand is a single bit (30_encoding.md R103). -/

namespace Sys2Proof

/-- A row of the opcode map (R104): a word `c` selects the row iff `c & mask = match`. -/
structure OpcodeRow where
  mask : Word
  bits : Word
  deriving DecidableEq, Repr

/-- The word `c` selects the row. -/
def OpcodeRow.selects (r : OpcodeRow) (c : Word) : Bool := c &&& r.mask == r.bits

/-- The mask of a format-N row: every bit is fixed (R104). -/
def maskN : Word := 0xFFFFFFFFFFFFFFFF

/-- The mask of a format-W row: bit 8 is free (R104). -/
def maskW : Word := 0xFFFFFFFFFFFFFEFF

/-- The thirteen rows of R104, in its order. -/
def opcodeRows : List OpcodeRow :=
  [⟨maskN, 0x01⟩, ⟨maskN, 0x02⟩, ⟨maskN, 0x03⟩, ⟨maskN, 0x04⟩, ⟨maskN, 0x05⟩,
   ⟨maskN, 0x10⟩, ⟨maskW, 0x11⟩, ⟨maskW, 0x12⟩,
   ⟨maskN, 0x20⟩, ⟨maskN, 0x30⟩, ⟨maskN, 0x40⟩, ⟨maskW, 0x50⟩, ⟨maskN, 0x51⟩]

/-- The word is one of the sixteen legal words (R104, R105). -/
def wordWf (c : Word) : Bool := opcodeRows.any (·.selects c)

/-- A host operation of R70: size 1 or 8, and a value that fits the size. The port answers the others
too, with `resp = ERR` (U8); only the over-wide value of a size-1 write is outside the spec (log 12). -/
def Event.wf : Event → Bool
  | .read _ size => size == 1 || size == 8
  | .write _ size value => (size == 1 && decide (value.toNat < 2 ^ 8)) || size == 8
  | .complete => true
  | .reset => true

/-- The constraints of R9 on the open parameters `T` and `DMEM_BYTES`. -/
def paramsWf (t dmemBytes : Nat) : Bool :=
  decide (1 ≤ t) && decide (t ≤ 32) && decide (16 ≤ dmemBytes) && decide (dmemBytes < 2 ^ 63) &&
    dmemBytes % 8 == 0

end Sys2Proof
end

