-- ==== Sys2Proof/Safety.lean ====
section
/-! DEFINITION. What counts as a good state and as a contained command, in the terms the claims use. -/

namespace Sys2Proof.Machine

/-- The ParamSet invariants (10_state.md R32): each multiplier `f` in `(0, p)`, each stored square `f² mod
p`, all key words pairwise distinct. -/
def ParamSetOk (p : Pmem) : Prop :=
  (∀ i < 2, 0 < (p.poly i 1).toNat ∧ (p.poly i 1).toNat < Config.p ∧
    (p.poly i 0).toNat = (p.poly i 1).toNat ^ 2 % Config.p) ∧
  (∀ i < Config.nph, ∀ j < Config.nph, p.ph i = p.ph j → i = j)

/-- DMEM has a size that R9 allows. -/
def State.sizeOk (s : State) : Prop := paramsWf Config.T s.dmem.size = true

/-- What holds of every state the machine reaches: DMEM canonical (log 2) and of a size R9 allows (log 9);
a ParamSet that PVALID vouches for is one (R32); BUSY and DONE never both 1 (R28); an error only of a
completed command (R44); and neither BUSY nor DONE means that no command has been accepted since reset
(R44, R45, R50). -/
structure State.Inv (s : State) : Prop where
  dmemWf : s.dmem.wf = true
  dmemSize : s.sizeOk
  paramSet : s.pvalid = true → ParamSetOk s.pmem
  notBoth : ¬(s.busy = true ∧ s.done = true)
  errDone : s.err ≠ .none → s.done = true
  untouched : s.busy = false → s.done = false →
    s.cmd = 0 ∧ s.res0 = 0 ∧ s.res1 = 0 ∧ s.pvalid = false

/-- STATUS says: completed with this error code (10_state.md R45). -/
def State.completedWith (s : State) (e : ErrCode) : Prop :=
  s.busy = false ∧ s.done = true ∧ s.err = e

/-- The operand registers but ACC, and CMD, are as before. -/
def KeepsOperands (s t : State) : Prop :=
  t.a = s.a ∧ t.b = s.b ∧ t.m0 = s.m0 ∧ t.m1 = s.m1 ∧ t.seed = s.seed ∧ t.dptr = s.dptr ∧
  t.dlen = s.dlen ∧ t.cmd = s.cmd

/-- The ParamSet and the bit that vouches for it are as before. -/
def KeepsParams (s t : State) : Prop :=
  (∀ w, t.pmem.word w = s.pmem.word w) ∧ t.pvalid = s.pvalid

/-- Every byte of DMEM reads as before, and there are as many. -/
def KeepsDmem (s t : State) : Prop :=
  t.dmem.size = s.dmem.size ∧ ∀ a, t.dmem.read a = s.dmem.read a

/-- The host's side and the supply of free values are as before. -/
def KeepsHostSide (s t : State) : Prop :=
  t.events = s.events ∧ t.seen = s.seen ∧ t.fresh = s.fresh

/-- Everything is as before but RES0, RES1, ACC and BUSY, DONE, ERR of STATUS. -/
def KeepsAllButResults (s t : State) : Prop :=
  KeepsOperands s t ∧ KeepsParams s t ∧ KeepsDmem s t ∧ KeepsHostSide s t

/-- The error codes a command may complete with (60_exceptions.md R301). -/
def mayRaise : Instr → List ErrCode
  | .addf => []
  | .adds => []
  | .mulf => []
  | .horner => []
  | .redp => []
  | .clmul => []
  | .phfull _ => [.paramInvalid, .dataRange]
  | .phlast _ => [.paramInvalid, .lenRange, .dataRange]
  | .smix => []
  | .final => []
  | .prepare => [.prepareFail]
  | .hash _ => [.paramInvalid, .dataRange]
  | .fprint => [.paramInvalid, .dataRange]

/-- The host addresses of the PMEM window, and of the DMEM window of `dmemBytes` bytes (20_memory.md R80). -/
def inPmem (haddr : Nat) : Prop := 0x1000 ≤ haddr ∧ haddr ≤ 0x121F
@[inherit_doc inPmem] def inDmem (dmemBytes haddr : Nat) : Prop :=
  0x10000 ≤ haddr ∧ haddr < 0x10000 + dmemBytes

/-- The accesses R71 allows for a read. -/
def LegalAccess (dmemBytes haddr size : Nat) : Prop :=
  (size = 8 ∧ haddr % 8 = 0 ∧ (haddr < 0x68 ∨ inPmem haddr ∨ inDmem dmemBytes haddr)) ∨
  (size = 1 ∧ (inPmem haddr ∨ inDmem dmemBytes haddr))

/-! What PREPARE takes from its reservoir, said without its loops (44_prepare.md R251 to R254). -/

/-- Masked to 61 bits, the word is a multiplier in `(0, 2⁶¹ − 1)` (R252). -/
def IsMultiplier (f : Word) : Prop := 0 < f.toNat % 2 ^ 61 ∧ f.toNat % 2 ^ 61 < 2 ^ 61 - 1

/-- Step 1 (R252): `g0` and `g1` are the words accepted, before masking, for the rows that hold `f0` and
`f1`, with reservoir words `r0`, `r1` of which `rest` is left. -/
def TakesMultipliers (f0 f1 r0 r1 g0 g1 : Word) (rest : List Word) : Prop :=
  IsMultiplier g0 ∧ IsMultiplier g1 ∧
  ((g0 = f0 ∧ g1 = f1 ∧ rest = [r0, r1]) ∨
   (¬IsMultiplier f0 ∧ g0 = r0 ∧ g1 = f1 ∧ rest = [r1]) ∨
   (¬IsMultiplier f0 ∧ ¬IsMultiplier r0 ∧ g0 = r1 ∧ g1 = f1 ∧ rest = []) ∨
   (g0 = f0 ∧ ¬IsMultiplier f1 ∧ g1 = r0 ∧ rest = [r1]) ∨
   (g0 = f0 ∧ ¬IsMultiplier f1 ∧ ¬IsMultiplier r0 ∧ g1 = r1 ∧ rest = []) ∨
   (¬IsMultiplier f0 ∧ g0 = r0 ∧ ¬IsMultiplier f1 ∧ g1 = r1 ∧ rest = []))

/-- Key word `i` equals an earlier one (R253). -/
def RepeatsEarlier (k : Nat → Word) (i : Nat) : Prop := ∃ j < i, k j = k i

/-- Step 2 (R253): the 64 key words `k` become `k'`, pairwise distinct, with words from the front of `rest`:
none; one in place of a repeated key word `i`; or two, the second in place of the key word `j ≥ i` that
repeats an earlier one after the first replacement (`j = i` where the first word itself repeats one). -/
def RepairsKeys (k : Nat → Word) (rest : List Word) (k' : Nat → Word) : Prop :=
  (∀ i < 64, ∀ j < 64, k' i = k' j → i = j) ∧
  (k' = k ∨
   (∃ i r tail, i < 64 ∧ rest = r :: tail ∧ RepeatsEarlier k i ∧ k' = Function.update k i r) ∨
   (∃ i j r r', i ≤ j ∧ j < 64 ∧ rest = [r, r'] ∧ RepeatsEarlier k i ∧
      RepeatsEarlier (Function.update k i r) j ∧
      k' = Function.update (Function.update k i r) j r'))

/-- The words of PMEM that the view of `which = W` reads: its row of `poly`, its `K` key words. -/
def SameView (w : Bool) (p q : Pmem) : Prop :=
  (∀ j < 2, p.poly (rowOf w) j = q.poly (rowOf w) j) ∧
  (∀ i < Config.K, p.ph (shiftOf w + i) = q.ph (shiftOf w + i))

end Sys2Proof.Machine
end

