-- ==== Sys2Proof/Certificates/Slice0/Obligations.lean ====
section
/-! DEFINITION. The statements for the provers: what the spec's numbered rules say of this model. -/

open Sys2Proof Sys2Proof.Machine

/-! ## Encoding (30_encoding.md) -/

/-- R104, R105: a word decodes to a command exactly when it is that command's word, so the decoder
accepts the sixteen legal words and no other. -/
def Obligations.DecodeAcceptsExactlyTheEncodings : Prop :=
  ∀ (c : Word) (i : Instr), decode c = .ok i ↔ c = encode i

/-- R104: a word is legal iff it selects a row of the opcode map, `c & mask = match`. -/
def Obligations.DecodeAgreesWithMatchAndMask : Prop :=
  ∀ c : Word, (∃ i, decode c = .ok i) ↔ ∃ r ∈ opcodeRows, c &&& r.mask = r.bits

/-- R101: why a word is illegal. The order of the three reasons is the rule's. -/
def Obligations.DecodeNamesWhyAWordIsIllegal : Prop :=
  ∀ c : Word,
    (c.toNat / 2 ^ 9 ≠ 0 → decode c = .error .reservedBits) ∧
    (c.toNat / 2 ^ 9 = 0 →
      c.toNat % 256 ∉ [1, 2, 3, 4, 5, 0x10, 0x11, 0x12, 0x20, 0x30, 0x40, 0x50, 0x51] →
      decode c = .error .unknownOpcode) ∧
    (c.toNat / 2 ^ 9 = 0 → c.toNat % 256 ∈ [1, 2, 3, 4, 5, 0x10, 0x20, 0x30, 0x40, 0x51] →
      c.toNat / 256 % 2 = 1 → decode c = .error .whichOnFormatN)

/-- R104: the sixteen legal words, written out, and what they decode to. -/
def Obligations.SixteenWordsDecode : Prop :=
  decode 0x001 = .ok .addf ∧ decode 0x002 = .ok .adds ∧ decode 0x003 = .ok .mulf ∧
  decode 0x004 = .ok .horner ∧ decode 0x005 = .ok .redp ∧ decode 0x010 = .ok .clmul ∧
  decode 0x011 = .ok (.phfull false) ∧ decode 0x111 = .ok (.phfull true) ∧
  decode 0x012 = .ok (.phlast false) ∧ decode 0x112 = .ok (.phlast true) ∧
  decode 0x020 = .ok .smix ∧ decode 0x030 = .ok .final ∧ decode 0x040 = .ok .prepare ∧
  decode 0x050 = .ok (.hash false) ∧ decode 0x150 = .ok (.hash true) ∧
  decode 0x051 = .ok .fprint

/-! ## The completion step and the interleaving (10_state.md R44, R45; 20_memory.md R85) -/

/-- A step runs the decoded command: with a command pending that decodes to `i`, the step is `exec i`,
when the interleaving is at a completion step (which is then used up) or at its end. (That a command
completes at the end of `events`, the first clause, is the model's choice, log 5.) -/
def Obligations.StepRunsThePendingCommand : Prop :=
  ∀ (s : State) (i : Instr), s.busy = true → decode s.cmd = .ok i →
    (s.events = [] → step s = exec i s) ∧
    (∀ es, s.events = .complete :: es → step s = exec i { s with events := es })

/-- R45, R105: the completion of an illegal word sets ERR = 1, DONE = 1, BUSY = 0 and changes nothing else.
(That it completes at the end of `events`, the first clause, is the model's choice, log 5.) -/
def Obligations.IllegalWordReportsError1AndNothingElse : Prop :=
  ∀ (s : State) (e : Illegal), s.busy = true → decode s.cmd = .error e →
    (s.events = [] →
      step s = .next { s with err := .illegalCmd, busy := false, done := true }) ∧
    (∀ es, s.events = .complete :: es →
      step s = .next { s with events := es, err := .illegalCmd, busy := false, done := true })

/-- R45, R301: every command, in every state, completes; its error code is one that R301 lists for it. -/
def Obligations.EveryCommandCompletesWithAListedError : Prop :=
  ∀ (i : Instr) (s : State), ∃ t, exec i s = .next t ∧ t.busy = false ∧ t.done = true ∧
    t.cmd = s.cmd ∧ (t.err = .none ∨ t.err ∈ mayRaise i)

/-- Nothing in UMC is stuck: every state steps to a next state. -/
def Obligations.EveryStepHasANextState : Prop :=
  ∀ s : State, ∃ t, step s = .next t

/-- R70, R72, R85: a host operation acts through the step, whether or not UMC is BUSY. A read leaves UMC as
it is, and the host observes what `hostRead` answers; a write has the effect of `hostWrite`, and the host
observes its response. While BUSY every write is refused and changes nothing of UMC. -/
def Obligations.HostOperationsActThroughTheStep : Prop :=
  ∀ (s : State) (es : List Event) (haddr : Word) (size : Nat) (v : Word),
    (s.events = .read haddr size :: es →
      step s = .next { s with
        events := es
        seen := s.seen ++ [.read (s.hostRead haddr size).1 (s.hostRead haddr size).2] }) ∧
    (s.events = .write haddr size v :: es →
      step s = .next { (s.hostWrite haddr size v).2 with
        events := es
        seen := s.seen ++ [.write (s.hostWrite haddr size v).1] }) ∧
    (s.busy = true → s.hostWrite haddr size v = (.err, s)) ∧
    (s.busy = true → s.events = .write haddr size v :: es →
      step s = .next { s with events := es, seen := s.seen ++ [.write .err] })

/-- R351(a): a pending command completes, if no reset discards it: at the latest when the interleaving
has come to its end. (That the end of `events` lets it complete is the model's choice, log 5.) -/
def Obligations.PendingCommandCompletes : Prop :=
  ∀ s : State, s.busy = true → Event.reset ∉ s.events →
    ∃ n ≤ s.events.length + 1, ∃ t, Sys2Proof.core.run n s = .next t ∧
      t.busy = false ∧ t.done = true ∧ t.cmd = s.cmd

/-- R340: with no command pending and no host operation, UMC does nothing. -/
def Obligations.IdleMachineStays : Prop :=
  ∀ s : State, s.busy = false → s.events = [] → step s = .next s

/-! ## Reset (10_state.md R50, 70_reset_and_hazards.md R340) -/

/-- R50: the registers, CMD and STATUS are 0 after reset, ID is 0x2020; PMEM and DMEM hold the free
values of logs 1 and 2. DMEM has the 65536 bytes of UMC (R9). -/
def Obligations.ResetLeavesZeroRegisters : Prop :=
  (∀ r ∈ [Reg.cmd, .status, .a, .b, .acc, .m0, .m1, .seed, .dptr, .dlen, .res0, .res1],
    State.reset.readReg r = 0) ∧
  State.reset.readReg .id = 0x2020 ∧ State.reset.busy = false ∧ State.reset.dmem.size = 65536 ∧
  (∀ w < 68, State.reset.pmem.word w = Config.pmemReset 0 w) ∧
  (∀ a, State.reset.dmem.read a = Config.dmemReset 0 a)

/-- U23, R340: a reset discards a pending command without effect; then the reset state holds. The
memories hold the free values of a new draw, the host's side goes on (log 8). -/
def Obligations.ResetDiscardsThePendingCommand : Prop :=
  ∀ (s : State) (es : List Event), s.events = .reset :: es →
    ∃ t, step s = .next t ∧ t.busy = false ∧ t.events = es ∧ t.seen = s.seen ∧
      t.dmem.size = s.dmem.size ∧
      (∀ r ∈ [Reg.cmd, .status, .a, .b, .acc, .m0, .m1, .seed, .dptr, .dlen, .res0, .res1],
        t.readReg r = 0) ∧
      (∀ w < 68, t.pmem.word w = Config.pmemReset (s.fresh + 1) w) ∧
      (∀ a, t.dmem.read a = Config.dmemReset (s.fresh + 1) a)

/-! ## The host port (20_memory.md section 3) -/

/-- R44: an accepted write of `v` to CMD sets CMD and BUSY, clears DONE and ERR, and leaves all else,
whatever `v` is. -/
def Obligations.CmdWriteIsAccepted : Prop :=
  ∀ (s : State) (es : List Event) (v : Word), s.busy = false → s.events = .write 0x08 8 v :: es →
    step s = .next { s with
      cmd := v, busy := true, done := false, err := .none, events := es,
      seen := s.seen ++ [.write .ok] }

/-- R20, R71, R73, R80: a write to an operand register, at the offset R80 gives it, sets that register and
nothing else; it reads back. -/
def Obligations.OperandRegisterWriteReadsBack : Prop :=
  ∀ (s : State) (r : Reg) (haddr v : Word), s.busy = false →
    (r, haddr) ∈ [(Reg.a, (0x18 : Word)), (.b, 0x20), (.acc, 0x28), (.m0, 0x30), (.m1, 0x38),
      (.seed, 0x40), (.dptr, 0x48), (.dlen, 0x50)] →
    ∃ t, s.hostWrite haddr 8 v = (.ok, t) ∧ t.hostRead haddr 8 = (.ok, v) ∧ t.readReg r = v ∧
      (∀ q, q ≠ r → t.readReg q = s.readReg q) ∧
      (∀ w, t.pmem.word w = s.pmem.word w) ∧ KeepsDmem s t ∧ KeepsHostSide s t

/-- R71: exactly these reads are allowed; a refused read returns value 0 (R70). -/
def Obligations.HostReadAllowedExactly : Prop :=
  ∀ (s : State) (haddr : Word) (size : Nat),
    ((s.hostRead haddr size).1 = .ok ↔ LegalAccess s.dmem.size haddr.toNat size) ∧
    (¬LegalAccess s.dmem.size haddr.toNat size → s.hostRead haddr size = (.err, 0))

/-- R71, R72: exactly these writes are accepted, those at a legal address that is not one of the
read-only registers ID, STATUS, RES0, RES1, while BUSY = 0; a refused write changes nothing (R70). (That a
size-1 write of a value of 256 or more, which R70 excludes, is accepted too is the model's choice, log 12.) -/
def Obligations.HostWriteAcceptedExactly : Prop :=
  ∀ (s : State) (haddr : Word) (size : Nat) (v : Word),
    ((s.hostWrite haddr size v).1 = .ok ↔
      s.busy = false ∧ LegalAccess s.dmem.size haddr.toNat size ∧
        haddr.toNat ∉ [0x00, 0x10, 0x58, 0x60]) ∧
    ((s.hostWrite haddr size v).1 = .err → s.hostWrite haddr size v = (.err, s))

/-- R27, R71, R80, R81, R82: what a legal read returns, in every state: each register at the offset R80 gives
it (ID the constant 0x2020), the PMEM word or byte, the DMEM word (little-endian) or byte, for every size of
DMEM that R9 allows. -/
def Obligations.HostReadReturnsTheAddressedValue : Prop :=
  ∀ s : State, s.sizeOk →
    (∀ x ∈ [((0x00 : Word), (0x2020 : Word)), (0x08, s.cmd), (0x10, s.status), (0x18, s.a), (0x20, s.b),
        (0x28, s.acc), (0x30, s.m0), (0x38, s.m1), (0x40, s.seed), (0x48, s.dptr), (0x50, s.dlen),
        (0x58, s.res0), (0x60, s.res1)],
      s.hostRead x.1 8 = (.ok, x.2)) ∧
    (∀ w < 68, s.hostRead (BitVec.ofNat 64 (0x1000 + 8 * w)) 8 = (.ok, s.pmem.word w)) ∧
    (∀ w < 68, ∀ j < 8, ∃ v, s.hostRead (BitVec.ofNat 64 (0x1000 + 8 * w + j)) 1 = (.ok, v) ∧
      v.toNat = (s.pmem.word w).toNat / 2 ^ (8 * j) % 2 ^ 8) ∧
    (∀ a < s.dmem.size, ∃ v, s.hostRead (BitVec.ofNat 64 (0x10000 + a)) 1 = (.ok, v) ∧
      v.toNat = (s.dmem.read a).toNat) ∧
    (∀ a, 8 * a < s.dmem.size →
      ∃ v, s.hostRead (BitVec.ofNat 64 (0x10000 + 8 * a)) 8 = (.ok, v) ∧
        ∀ j < 8, v.toNat / 2 ^ (8 * j) % 2 ^ 8 = (s.dmem.read (8 * a + j)).toNat)

/-- R33, R73: an accepted write of a PMEM word or of one byte of it replaces just that, and withdraws
PVALID, even if it stores the value already there. (That a size-1 write of a value of 256 or more, which R70
excludes, stores the low byte is the model's choice, log 12.) -/
def Obligations.PmemWriteReplacesAndWithdrawsPvalid : Prop :=
  ∀ (s : State) (w : Nat) (v : Word), s.busy = false → w < 68 →
    (∃ t, s.hostWrite (BitVec.ofNat 64 (0x1000 + 8 * w)) 8 v = (.ok, t) ∧ t.pmem.word w = v ∧
      (∀ x, x ≠ w → t.pmem.word x = s.pmem.word x) ∧
      t = { s with pmem := t.pmem, pvalid := false }) ∧
    (∀ j < 8, ∃ t, s.hostWrite (BitVec.ofNat 64 (0x1000 + 8 * w + j)) 1 v = (.ok, t) ∧
      (∀ k < 8, (t.pmem.word w).toNat / 2 ^ (8 * k) % 2 ^ 8 =
        if k = j then v.toNat % 2 ^ 8 else (s.pmem.word w).toNat / 2 ^ (8 * k) % 2 ^ 8) ∧
      (∀ x, x ≠ w → t.pmem.word x = s.pmem.word x) ∧
      t = { s with pmem := t.pmem, pvalid := false })

/-- R73: an accepted write to DMEM stores `value[8j+7:8j]` at `a + j` and leaves every other byte and all
else, for every size of DMEM that R9 allows. (That a size-1 write of a value of 256 or more, which R70
excludes, stores the low byte is the model's choice, log 12.) -/
def Obligations.DmemWriteStoresItsBytes : Prop :=
  ∀ (s : State) (a : Nat) (v : Word), s.sizeOk → s.busy = false →
    (8 * a < s.dmem.size →
      ∃ t, s.hostWrite (BitVec.ofNat 64 (0x10000 + 8 * a)) 8 v = (.ok, t) ∧
        (∀ j < 8, (t.dmem.read (8 * a + j)).toNat = v.toNat / 2 ^ (8 * j) % 2 ^ 8) ∧
        (∀ x, ¬(8 * a ≤ x ∧ x < 8 * a + 8) → t.dmem.read x = s.dmem.read x) ∧
        t = { s with dmem := t.dmem } ∧ t.dmem.size = s.dmem.size) ∧
    (a < s.dmem.size →
      ∃ t, s.hostWrite (BitVec.ofNat 64 (0x10000 + a)) 1 v = (.ok, t) ∧
        (t.dmem.read a).toNat = v.toNat % 2 ^ 8 ∧
        (∀ x, x ≠ a → t.dmem.read x = s.dmem.read x) ∧
        t = { s with dmem := t.dmem } ∧ t.dmem.size = s.dmem.size)

/-- R62: `MemRead(addr, n) = Σ_{j<n} DMEM[addr + j] · 2^(8j)`. -/
def Obligations.MemReadIsTheLittleEndianSum : Prop :=
  ∀ (m : Memory) (addr n : Nat),
    memRead m addr n = ∑ j ∈ Finset.range n, (m.read (addr + j)).toNat * 2 ^ (8 * j) ∧
    memRead m addr n < 2 ^ (8 * n)

/-- R27, R28: the fields of STATUS as read, the reserved bits 0; and ID, which reads 0x2020 in every state. -/
def Obligations.StatusAndIdReadTheirFields : Prop :=
  ∀ s : State, s.readReg .id = 0x2020 ∧ s.readReg .status = s.status ∧
    s.status.getLsbD 0 = s.busy ∧ s.status.getLsbD 1 = s.done ∧
    s.status.getLsbD 2 = s.pvalid ∧ s.status.getLsbD 3 = false ∧
    s.status.toNat / 2 ^ 4 % 2 ^ 4 = s.err.code ∧ s.status.toNat / 2 ^ 8 = 0

/-! ## ModArith (40_modarith.md) -/

/-- R142, R143: ADDF completes with the sum, 8 added to its low 64 bits on overflow. -/
def Obligations.AddfResult : Prop :=
  ∀ s : State, ∃ t, exec .addf s = .next t ∧
    (s.a.toNat + s.b.toNat < 2 ^ 64 → t.res0.toNat = s.a.toNat + s.b.toNat) ∧
    (2 ^ 64 ≤ s.a.toNat + s.b.toNat →
      t.res0.toNat = (s.a.toNat + s.b.toNat - 2 ^ 64 + 8) % 2 ^ 64) ∧
    t.res1 = 0 ∧ t.completedWith .none ∧ t.acc = s.acc ∧ KeepsAllButResults s t

/-- R144: the contract of add_fast and a sufficient condition for it, what happens outside it, that the
function commutes, and that a sum without overflow is returned unchanged. -/
def Obligations.AddFastIsCongruentInItsContract : Prop :=
  ∀ x y : Word,
    (x.toNat + y.toNat < 2 ^ 65 - 8 →
      (addFast x y).toNat % Config.M = (x.toNat + y.toNat) % Config.M ∧
      (2 ^ 64 ≤ x.toNat + y.toNat → (x.toNat + y.toNat) % 2 ^ 64 + 8 < 2 ^ 64)) ∧
    (x.toNat < Config.M ∨ y.toNat < Config.M → x.toNat + y.toNat < 2 ^ 65 - 8) ∧
    (2 ^ 65 - 8 ≤ x.toNat + y.toNat →
      2 ^ 64 - 7 ≤ x.toNat ∧ 2 ^ 64 - 7 ≤ y.toNat ∧
      (addFast x y).toNat = x.toNat + y.toNat + 8 - 2 ^ 65 ∧ (addFast x y).toNat ≤ 6 ∧
      (addFast x y).toNat + 8 = (x.toNat + y.toNat) % Config.M) ∧
    addFast x y = addFast y x ∧
    (x.toNat + y.toNat < 2 ^ 64 → (addFast x y).toNat = x.toNat + y.toNat) ∧
    addFast 0xFFFFFFFFFFFFFFF7 1 = 0xFFFFFFFFFFFFFFF8 ∧
    addFast 0xFFFFFFFFFFFFFFF7 8 = 0xFFFFFFFFFFFFFFFF ∧
    addFast 0xFFFFFFFFFFFFFFFF 0xFFFFFFFFFFFFFFFF = 6

/-- R146, R147: ADDS completes with `(A + B) mod M`, the canonical representative, for all words, whichever
operand stands first. -/
def Obligations.AddsResultIsTheSumModM : Prop :=
  ∀ s : State, ∃ t, exec .adds s = .next t ∧
    t.res0.toNat = (s.a.toNat + s.b.toNat) % (2 ^ 64 - 8) ∧
    t.res0 = addSlow s.b s.a ∧
    t.res1 = 0 ∧ t.completedWith .none ∧ t.acc = s.acc ∧ KeepsAllButResults s t

/-- R150, R152: MULF completes with `add_fast(lo, wrap64(8·hi))` of the exact product. -/
def Obligations.MulfResult : Prop :=
  ∀ s : State, ∃ t, exec .mulf s = .next t ∧
    (let lo := s.a.toNat * s.b.toNat % 2 ^ 64
     let hi := s.a.toNat * s.b.toNat / 2 ^ 64
     t.res0.toNat =
       if lo + 8 * hi % 2 ^ 64 < 2 ^ 64 then lo + 8 * hi % 2 ^ 64
       else lo + 8 * hi % 2 ^ 64 - 2 ^ 64 + 8) ∧
    t.res1 = 0 ∧ t.completedWith .none ∧ t.acc = s.acc ∧ KeepsAllButResults s t

/-- R151: the product modulo M in the contract `m·x < 2¹²⁵`; outside it the result is congruent to
`m·x − 8·⌊hi / 2⁶¹⌋` and never to `m·x`; the inner sum, the factors 0 and 1, and that it commutes. -/
def Obligations.MulFastIsCongruentExactlyInItsContract : Prop :=
  ∀ m x : Word,
    (m.toNat * x.toNat < 2 ^ 125 ↔ m.toNat * x.toNat / 2 ^ 64 < 2 ^ 61) ∧
    (m.toNat < 2 ^ 61 → m.toNat * x.toNat < 2 ^ 125) ∧
    (m.toNat * x.toNat < 2 ^ 125 →
      (mulFast m x).toNat % Config.M = (m.toNat * x.toNat) % Config.M) ∧
    (2 ^ 125 ≤ m.toNat * x.toNat →
      ((mulFast m x).toNat + 8 * (m.toNat * x.toNat / 2 ^ 64 / 2 ^ 61)) % Config.M =
        (m.toNat * x.toNat) % Config.M ∧
      (mulFast m x).toNat % Config.M ≠ (m.toNat * x.toNat) % Config.M) ∧
    m.toNat * x.toNat % 2 ^ 64 + 8 * (m.toNat * x.toNat / 2 ^ 64) % 2 ^ 64 ≤ 2 ^ 65 - 9 ∧
    mulFast 0 x = 0 ∧ mulFast m 0 = 0 ∧ mulFast 1 x = x ∧ mulFast m x = mulFast x m ∧
    mulFast 0x4000000000000000 0x8000000000000000 = 0 ∧
    mulFast 0xFFFFFFFFFFFFFFFF 0xFFFFFFFFFFFFFFFF = 0xFFFFFFFFFFFFFFF1

/-- R155, R157: REDP completes with `A mod (2⁶¹ − 1)`. -/
def Obligations.RedpResult : Prop :=
  ∀ s : State, ∃ t, exec .redp s = .next t ∧ t.res0.toNat = s.a.toNat % (2 ^ 61 - 1) ∧
    t.res1 = 0 ∧ t.completedWith .none ∧ t.acc = s.acc ∧ KeepsAllButResults s t

/-- R156: the reduction by folding the top three bits, five values, the range of the result, and its
independence of the representative modulo M. -/
def Obligations.ReducePByFolding : Prop :=
  (∀ x : Word,
    ((reduceP x).toNat =
      if x.toNat % 2 ^ 61 + x.toNat / 2 ^ 61 < Config.p then x.toNat % 2 ^ 61 + x.toNat / 2 ^ 61
      else x.toNat % 2 ^ 61 + x.toNat / 2 ^ 61 - Config.p) ∧
    x.toNat % 2 ^ 61 + x.toNat / 2 ^ 61 ≤ Config.p + 7 ∧
    (reduceP x).toNat < 2 ^ 61 - 1 ∧
    reduceP x = reduceP (wrap64 (x.toNat % Config.M))) ∧
  reduceP (wrap64 Config.p) = 0 ∧ reduceP (wrap64 (2 ^ 61)) = 1 ∧ reduceP (wrap64 Config.M) = 0 ∧
  reduceP (wrap64 (2 ^ 64 - 1)) = 7 ∧ reduceP (wrap64 (Config.M - 1)) = wrap64 (Config.p - 1)

/-- R160, R162: HORNER completes with the same word in RES0 and ACC, always canonical (R161(a)), the sum
modulo M of its two products. -/
def Obligations.HornerResult : Prop :=
  ∀ s : State, ∃ t, exec .horner s = .next t ∧ t.acc = t.res0 ∧ t.res0.toNat < Config.M ∧
    t.res0.toNat =
      ((mulFast s.m0 (addFast s.acc s.a)).toNat + (mulFast s.m1 s.b).toNat) % Config.M ∧
    t.res1 = 0 ∧ t.completedWith .none ∧ KeepsAllButResults s t

/-- R161: the Horner update is canonical for all words; in its contract it is `(m0·(acc + x) + m1·y) mod M`
exactly; a sufficient condition for the contract, with `x` and `y` any words; and the zero multipliers. -/
def Obligations.HornerUpdateIsExactInItsContract : Prop :=
  ∀ acc m0 m1 x y : Word,
    (hornerDoubleUpdate acc m0 m1 x y).toNat < Config.M ∧
    (acc.toNat + x.toNat < 2 ^ 65 - 8 → m0.toNat * (addFast acc x).toNat < 2 ^ 125 →
      m1.toNat * y.toNat < 2 ^ 125 →
      (hornerDoubleUpdate acc m0 m1 x y).toNat =
        (m0.toNat * (acc.toNat + x.toNat) + m1.toNat * y.toNat) % Config.M) ∧
    (acc.toNat < Config.M → m0.toNat < 2 ^ 61 → m1.toNat < 2 ^ 61 →
      acc.toNat + x.toNat < 2 ^ 65 - 8 ∧ m0.toNat * (addFast acc x).toNat < 2 ^ 125 ∧
      m1.toNat * y.toNat < 2 ^ 125) ∧
    hornerDoubleUpdate acc 0 0 x y = 0

/-! ## PH (41_ph.md) -/

/-- R180, R181: bit `k` of RES1:RES0 after CLMUL is the XOR of `aᵢ & bⱼ` over `i + j = k`; equivalently it
is the XOR of `a << j` over the set bits `j` of `b`. -/
def Obligations.ClmulResultBits : Prop :=
  ∀ s : State, ∃ t, exec .clmul s = .next t ∧
    (∀ k < 128, (t.res1 ++ t.res0).getLsbD k =
      ((List.range (k + 1)).map fun i => s.a.getLsbD i && s.b.getLsbD (k - i)).foldl xor false) ∧
    t.res1 ++ t.res0 =
      (((List.range 64).filter fun j => s.b.getLsbD j).map fun j => zext128 s.a <<< j).foldl
        (· ^^^ ·) (0 : DWord) ∧
    t.completedWith .none ∧ t.acc = s.acc ∧ KeepsAllButResults s t

/-- R182: the carry-less product commutes, is linear over XOR, and has bit 127 zero. -/
def Obligations.ClmulIsCommutativeAndLinear : Prop :=
  ∀ a a' b : Word, clmul64 a b = clmul64 b a ∧
    clmul64 (a ^^^ a') b = clmul64 a b ^^^ clmul64 a' b ∧
    (clmul64 a b).getLsbD 127 = false

/-- R183, R184: PHFULL completes, where PVALID and the block lies in DMEM, with the seed XOR the sixteen
carry-less products of keyed data pairs; RES1 is below 2⁶³. -/
def Obligations.PhfullResult : Prop :=
  ∀ (s : State) (w : Bool), s.pvalid = true → s.dptr.toNat + 256 ≤ s.dmem.size →
    ∃ t, exec (.phfull w) s = .next t ∧
      t.res1 ++ t.res0 =
        ((List.range 16).map fun j =>
          clmul64 (wrap64 (memRead s.dmem (s.dptr.toNat + 16 * j) 8) ^^^ s.pmem.view w (2 * j))
            (wrap64 (memRead s.dmem (s.dptr.toNat + 16 * j + 8) 8) ^^^ s.pmem.view w (2 * j + 1))).foldl
          (· ^^^ ·) (zext128 s.seed) ∧
      t.res1.toNat < 2 ^ 63 ∧ t.completedWith .none ∧ t.acc = s.acc ∧ KeepsAllButResults s t

/-- R184, R302: where PHFULL stops: PARAM_INVALID first, then DATA_RANGE; only STATUS changes. -/
def Obligations.PhfullErrors : Prop :=
  ∀ (s : State) (w : Bool),
    (s.pvalid = false → exec (.phfull w) s =
      .next { s with err := .paramInvalid, busy := false, done := true }) ∧
    (s.pvalid = true → s.dmem.size < s.dptr.toNat + 256 → exec (.phfull w) s =
      .next { s with err := .dataRange, busy := false, done := true })

/-- R186, R188: PHLAST completes, where PVALID, `1 ≤ DLEN ≤ 256` and the footprint lies in DMEM, with the
seed XOR the products of the `⌊(n−1)/16⌋` full pairs and of the tail pair that ends the block; RES1 is
below 2⁶³. -/
def Obligations.PhlastResult : Prop :=
  ∀ (s : State) (w : Bool), s.pvalid = true → 1 ≤ s.dlen.toNat → s.dlen.toNat ≤ 256 →
    16 ≤ s.dptr.toNat + s.dlen.toNat → s.dptr.toNat + s.dlen.toNat ≤ s.dmem.size →
    ∃ t, exec (.phlast w) s = .next t ∧
      t.res1 ++ t.res0 =
        ((List.range ((s.dlen.toNat - 1) / 16)).map fun j =>
          clmul64 (wrap64 (memRead s.dmem (s.dptr.toNat + 16 * j) 8) ^^^ s.pmem.view w (2 * j))
            (wrap64 (memRead s.dmem (s.dptr.toNat + 16 * j + 8) 8) ^^^ s.pmem.view w (2 * j + 1))).foldl
          (· ^^^ ·) (zext128 s.seed) ^^^
        clmul64
          (wrap64 (memRead s.dmem (s.dptr.toNat + s.dlen.toNat - 16) 8) ^^^
            s.pmem.view w (2 * ((s.dlen.toNat - 1) / 16)))
          (wrap64 (memRead s.dmem (s.dptr.toNat + s.dlen.toNat - 8) 8) ^^^
            s.pmem.view w (2 * ((s.dlen.toNat - 1) / 16) + 1)) ∧
      t.res1.toNat < 2 ^ 63 ∧ t.completedWith .none ∧ t.acc = s.acc ∧ KeepsAllButResults s t

/-- R188, R302: where PHLAST stops: PARAM_INVALID, then LEN_RANGE, then DATA_RANGE; only STATUS
changes. -/
def Obligations.PhlastErrors : Prop :=
  ∀ (s : State) (w : Bool),
    (s.pvalid = false → exec (.phlast w) s =
      .next { s with err := .paramInvalid, busy := false, done := true }) ∧
    (s.pvalid = true → s.dlen.toNat = 0 ∨ 256 < s.dlen.toNat → exec (.phlast w) s =
      .next { s with err := .lenRange, busy := false, done := true }) ∧
    (s.pvalid = true → 1 ≤ s.dlen.toNat → s.dlen.toNat ≤ 256 →
      s.dptr.toNat + s.dlen.toNat < 16 ∨ s.dmem.size < s.dptr.toNat + s.dlen.toNat →
      exec (.phlast w) s = .next { s with err := .dataRange, busy := false, done := true })

/-- R187(e), the source's P5: on a full-sized block PHLAST does what PHFULL does, errors included. -/
def Obligations.PhlastOfAFullBlockIsPhfull : Prop :=
  ∀ (s : State) (w : Bool), s.dlen = 256 → exec (.phlast w) s = exec (.phfull w) s

/-! ## The mixers (42_lengthclass.md R213, R215; 43_finalizer.md) -/

/-- R213, R215: SMIX completes with the splitmix64-style mixer of A with B injected. The five steps are
given on naturals. -/
def Obligations.SmixResult : Prop :=
  ∀ s : State, ∃ t, exec .smix s = .next t ∧
    (let v1 := s.a.toNat ^^^ (s.a.toNat / 2 ^ 30)
     let v2 := v1 * 0xbf58476d1ce4e5b9 % 2 ^ 64
     let v3 := (v2 ^^^ s.b.toNat) ^^^ (v2 / 2 ^ 27)
     let v4 := v3 * 0x94d049bb133111eb % 2 ^ 64
     t.res0.toNat = v4 ^^^ (v4 / 2 ^ 31)) ∧
    t.res1 = 0 ∧ t.completedWith .none ∧ t.acc = s.acc ∧ KeepsAllButResults s t

/-- R240, R241: FINAL completes with `wrap64((A ^ (A >> 27)) · C2)`. -/
def Obligations.FinalResult : Prop :=
  ∀ s : State, ∃ t, exec .final s = .next t ∧
    t.res0.toNat = (s.a.toNat ^^^ (s.a.toNat / 2 ^ 27)) * 0x94d049bb133111eb % 2 ^ 64 ∧
    t.res1 = 0 ∧ t.completedWith .none ∧ t.acc = s.acc ∧ KeepsAllButResults s t

/-- R242(a): the finalizer is a bijection on words. -/
def Obligations.FinalizerIsABijection : Prop := Function.Bijective finalizer

/-! ## PREPARE (44_prepare.md) -/

/-- R256, R257, R300: PREPARE either passes and leaves a ParamSet that PVALID vouches for, or fails with
ERR = 5 and RES0 = 0, and then PMEM holds free values (log 3); RES1 is 0 both times, the operand registers
and DMEM are as before. -/
def Obligations.PreparePassesWithAParamSetOrFails : Prop :=
  ∀ s : State, ∃ t, exec .prepare s = .next t ∧ t.res1 = 0 ∧ t.acc = s.acc ∧
    KeepsOperands s t ∧ KeepsDmem s t ∧ t.events = s.events ∧ t.seen = s.seen ∧
    ((t.completedWith .none ∧ t.pvalid = true ∧ t.res0 = 1 ∧ ParamSetOk t.pmem ∧
        t.fresh = s.fresh) ∨
     (t.completedWith .prepareFail ∧ t.pvalid = false ∧ t.res0 = 0 ∧ t.fresh = s.fresh + 1 ∧
        ∀ w < 68, t.pmem.word w = Config.pmemAfterFailure s.fresh w))

/-- R251 to R254: what PREPARE does with the reservoir, the entry values `r0`, `r1` of `poly[0][0]` and
`poly[1][0]`. It passes exactly if step 1 finds two acceptable multipliers and step 2 can make the key words
distinct with the at most two words at hand, taken in order, `r0` first; then PMEM holds those multipliers
masked, their squares modulo p, and those key words. Where a third word is demanded it fails with ERR = 5. -/
def Obligations.PrepareSpendsTheReservoirInOrder : Prop :=
  ∀ s : State,
    let done : Word → Word → (Nat → Word) → Prop := fun g0 g1 keys => ∃ rest,
      TakesMultipliers (s.pmem.poly 0 1) (s.pmem.poly 1 1) (s.pmem.poly 0 0) (s.pmem.poly 1 0) g0 g1 rest ∧
      RepairsKeys s.pmem.ph rest keys
    ∃ t, exec .prepare s = .next t ∧ t.acc = s.acc ∧ KeepsOperands s t ∧ KeepsDmem s t ∧
      (∀ g0 g1 keys, done g0 g1 keys →
        t.completedWith .none ∧ t.pvalid = true ∧ t.res0 = 1 ∧ t.res1 = 0 ∧ KeepsHostSide s t ∧
        (t.pmem.poly 0 1).toNat = g0.toNat % 2 ^ 61 ∧
        (t.pmem.poly 0 0).toNat = (g0.toNat % 2 ^ 61) ^ 2 % (2 ^ 61 - 1) ∧
        (t.pmem.poly 1 1).toNat = g1.toNat % 2 ^ 61 ∧
        (t.pmem.poly 1 0).toNat = (g1.toNat % 2 ^ 61) ^ 2 % (2 ^ 61 - 1) ∧
        ∀ i < 64, t.pmem.ph i = keys i) ∧
      ((¬∃ g0 g1 keys, done g0 g1 keys) →
        t.completedWith .prepareFail ∧ t.pvalid = false ∧ t.res0 = 0 ∧ t.res1 = 0)

/-- R259: PREPARE on a valid ParamSet passes and leaves PMEM as it is. -/
def Obligations.PrepareKeepsAValidParamSet : Prop :=
  ∀ s : State, ParamSetOk s.pmem →
    exec .prepare s = .next { s with
      res0 := 1, res1 := 0, pvalid := true, err := .none, busy := false, done := true }

/-- R258, the source's P2: what a PREPARE that passes leaves. The ParamSet invariants; multipliers below
`2⁶¹`, squares below `p`; a key word that differs from every earlier one as it then stands is unchanged;
every multiplier and key word is its own (a multiplier masked) or a word of the reservoir on entry (a
multiplier masked), and at most two in all have been replaced, `ph[0]` never. -/
def Obligations.PrepareSuccessMeetsItsProperties : Prop :=
  ∀ s t : State, exec .prepare s = .next t → t.pvalid = true →
    ParamSetOk t.pmem ∧
    (∀ i < 2, (t.pmem.poly i 1).toNat < 2 ^ 61 ∧ (t.pmem.poly i 0).toNat < 2 ^ 61 - 1) ∧
    (∀ i < 64, (∀ j < i, t.pmem.ph j ≠ s.pmem.ph i) → t.pmem.ph i = s.pmem.ph i) ∧
    (∀ i < 2, t.pmem.poly i 1 = mask61 (s.pmem.poly i 1) ∨
      ∃ r < 2, t.pmem.poly i 1 = mask61 (s.pmem.poly r 0)) ∧
    (∀ i < 64, t.pmem.ph i = s.pmem.ph i ∨ ∃ r < 2, t.pmem.ph i = s.pmem.poly r 0) ∧
    ((List.range 2).filter fun i => t.pmem.poly i 1 != mask61 (s.pmem.poly i 1)).length +
      ((List.range 64).filter fun i => t.pmem.ph i != s.pmem.ph i).length ≤ 2 ∧
    t.pmem.ph 0 = s.pmem.ph 0

/-- R260, the source's S6: PREPARE on an all-zero PMEM fails with ERR = 5, RES0 = 0, PVALID = 0. -/
def Obligations.PrepareFailsOnZeros : Prop :=
  ∀ s : State, (∀ w < 68, s.pmem.word w = 0) →
    ∃ t, exec .prepare s = .next t ∧ t.completedWith .prepareFail ∧ t.pvalid = false ∧
      t.res0 = 0 ∧ t.res1 = 0

/-! ## HASH and FPRINT (42_lengthclass.md, 45_dispatch.md) -/

/-- R211, R213, R216, R283: HASH on 0 to 8 bytes completes with the Short mixer of the packed data and of
the seed XOR the key word of the length. -/
def Obligations.HashOfAShortInput : Prop :=
  ∀ (s : State) (w : Bool), s.pvalid = true → s.dlen.toNat ≤ 8 →
    s.dptr.toNat + s.dlen.toNat ≤ s.dmem.size →
    ∃ t, exec (.hash w) s = .next t ∧
      t.res0 = shortMix (vecToU64 s.dmem s.dptr.toNat s.dlen.toNat)
        (s.seed ^^^ s.pmem.word (4 + 32 * rowOf w + s.dlen.toNat)) ∧
      t.res1 = 0 ∧ t.completedWith .none ∧ t.acc = s.acc ∧ KeepsAllButResults s t

/-- R212: how the 0 to 8 data bytes are packed, case by case. -/
def Obligations.VecToU64ByCases : Prop :=
  ∀ (m : Memory) (base n : Nat),
    let d : Nat → Nat := fun j => (m.read (base + j)).toNat
    (n = 0 → (vecToU64 m base n).toNat = 0) ∧
    (n = 1 → (vecToU64 m base n).toNat = d 0) ∧
    (n = 2 → (vecToU64 m base n).toNat = (d 0 + 256 * d 1) * 2 ^ 32 + (d 0 + 256 * d 1)) ∧
    (n = 3 → (vecToU64 m base n).toNat =
      (d 1 + 256 * d 2) * 2 ^ 32 + (d 0 + (d 1 + 256 * d 2))) ∧
    (4 ≤ n → n ≤ 8 →
      let lo := d 0 + 2 ^ 8 * d 1 + 2 ^ 16 * d 2 + 2 ^ 24 * d 3
      let hi := d (n - 4) + 2 ^ 8 * d (n - 3) + 2 ^ 16 * d (n - 2) + 2 ^ 24 * d (n - 1)
      (vecToU64 m base n).toNat = hi * 2 ^ 32 + (lo + hi) % 2 ^ 32)

/-- R220, R283: HASH on 9 to 16 bytes completes with the Finalizer of one Horner step, from 0, on the
halves of `(seed ⊕ n) ⊕ CLMUL64(first 8 bytes ⊕ k[0], last 8 bytes ⊕ k[1])`. -/
def Obligations.HashOfAMediumInput : Prop :=
  ∀ (s : State) (w : Bool), s.pvalid = true → 9 ≤ s.dlen.toNat → s.dlen.toNat ≤ 16 →
    s.dptr.toNat + s.dlen.toNat ≤ s.dmem.size →
    ∃ t, exec (.hash w) s = .next t ∧
      (let acc : DWord := zext128 (s.seed ^^^ s.dlen) ^^^
          clmul64 (wrap64 (memRead s.dmem s.dptr.toNat 8) ^^^ s.pmem.word (4 + 32 * rowOf w))
            (wrap64 (memRead s.dmem (s.dptr.toNat + s.dlen.toNat - 8) 8) ^^^
              s.pmem.word (5 + 32 * rowOf w))
       t.res0 = finalizer (hornerDoubleUpdate 0 (s.pmem.word (2 * rowOf w))
          (s.pmem.word (2 * rowOf w + 1)) (lo64 acc) (hi64 acc))) ∧
      t.res1 = 0 ∧ t.completedWith .none ∧ t.acc = s.acc ∧ KeepsAllButResults s t

/-- R224, R225(a), R283: HASH on more than 16 bytes completes with the Finalizer of the Horner fold over
`⌈n/256⌉ − 1` full blocks and a last block of the remaining 1 to 256 bytes, whose seed is tweaked by its
length modulo 256. -/
def Obligations.HashOfALongInput : Prop :=
  ∀ (s : State) (w : Bool), s.pvalid = true → 16 < s.dlen.toNat →
    s.dptr.toNat + s.dlen.toNat ≤ s.dmem.size →
    ∃ t, exec (.hash w) s = .next t ∧
      (let q := (s.dlen.toNat - 1) / 256
       let n' := s.dlen.toNat - 256 * q
       let fold : Word → DWord → Word := fun acc c =>
         hornerDoubleUpdate acc (s.pmem.mult0 w) (s.pmem.mult1 w) (lo64 c) (hi64 c)
       let acc := (List.range q).foldl (fun acc j =>
         fold acc (phFullBlock s.dmem (s.pmem.view w) s.seed (s.dptr.toNat + 256 * j))) 0
       1 ≤ n' ∧ n' ≤ 256 ∧
       t.res0 = finalizer (fold acc
         (phLastBlock s.dmem (s.pmem.view w) (s.seed ^^^ wrap64 (n' % 256))
           (s.dptr.toNat + 256 * q) n'))) ∧
      t.res1 = 0 ∧ t.completedWith .none ∧ t.acc = s.acc ∧ KeepsAllButResults s t

/-- R283, R284, R302: where HASH and FPRINT stop: PARAM_INVALID, then DATA_RANGE, the sum taken exactly;
only STATUS changes. -/
def Obligations.HashAndFprintErrors : Prop :=
  ∀ (s : State) (i : Instr), i = .hash false ∨ i = .hash true ∨ i = .fprint →
    (s.pvalid = false → exec i s =
      .next { s with err := .paramInvalid, busy := false, done := true }) ∧
    (s.pvalid = true → s.dmem.size < s.dptr.toNat + s.dlen.toNat → exec i s =
      .next { s with err := .dataRange, busy := false, done := true })

/-- R282, R284, the source's P4: FPRINT completes with the digest of HASH.0 in RES0 and that of HASH.1 in
RES1, for every length whose footprint lies in DMEM. -/
def Obligations.FprintIsTheTwoHashes : Prop :=
  ∀ s : State, s.pvalid = true → s.dptr.toNat + s.dlen.toNat ≤ s.dmem.size →
    ∃ t t0 t1, exec .fprint s = .next t ∧ exec (.hash false) s = .next t0 ∧
      exec (.hash true) s = .next t1 ∧ t.res0 = t0.res0 ∧ t.res1 = t1.res0 ∧
      t.completedWith .none ∧ t.acc = s.acc ∧ KeepsAllButResults s t

/-- R66, R286, the source's P1: the digest is a function of W, SEED, DLEN, the words of PMEM of the view
and row of W, and the bytes of the input: it does not depend on where they lie, on any other byte, or on
any other register. -/
def Obligations.HashDependsOnlyOnItsInput : Prop :=
  ∀ (s s' t t' : State) (w : Bool), s.pvalid = true → s'.pvalid = true →
    s.dptr.toNat + s.dlen.toNat ≤ s.dmem.size →
    s'.dptr.toNat + s'.dlen.toNat ≤ s'.dmem.size →
    s.seed = s'.seed → s.dlen = s'.dlen → SameView w s.pmem s'.pmem →
    (∀ j < s.dlen.toNat, s.dmem.read (s.dptr.toNat + j) = s'.dmem.read (s'.dptr.toNat + j)) →
    exec (.hash w) s = .next t → exec (.hash w) s' = .next t' → t.res0 = t'.res0

/-- R287: the words of PMEM a digest depends on, by the class of the length: one key word (Short); two key
words and the two multipliers (Medium); the multipliers and the first `2·⌈n/16⌉` key words of the view, all
32 where the input is longer than one block (Long). -/
def Obligations.HashReadsOnlyTheWordsOfItsClass : Prop :=
  ∀ (s t t' : State) (w : Bool) (q : Pmem), s.pvalid = true →
    s.dptr.toNat + s.dlen.toNat ≤ s.dmem.size →
    exec (.hash w) s = .next t → exec (.hash w) { s with pmem := q } = .next t' →
    (s.dlen.toNat ≤ 8 →
      s.pmem.ph (shiftOf w + s.dlen.toNat) = q.ph (shiftOf w + s.dlen.toNat) → t.res0 = t'.res0) ∧
    (9 ≤ s.dlen.toNat → s.dlen.toNat ≤ 16 →
      (∀ j < 2, s.pmem.poly (rowOf w) j = q.poly (rowOf w) j) →
      (∀ i < 2, s.pmem.ph (shiftOf w + i) = q.ph (shiftOf w + i)) → t.res0 = t'.res0) ∧
    (16 < s.dlen.toNat →
      (∀ j < 2, s.pmem.poly (rowOf w) j = q.poly (rowOf w) j) →
      (∀ i < (if 256 < s.dlen.toNat then 32 else 2 * ((s.dlen.toNat + 15) / 16)),
        s.pmem.ph (shiftOf w + i) = q.ph (shiftOf w + i)) → t.res0 = t'.res0)

/-! ## The whole machine -/

/-- R34, R46: what no command writes: DMEM and every operand register but ACC; only HORNER writes ACC;
only PREPARE writes PMEM and PVALID. -/
def Obligations.CommandsWriteOnlyWhatR46Lists : Prop :=
  ∀ (i : Instr) (s t : State), exec i s = .next t →
    KeepsDmem s t ∧ KeepsOperands s t ∧ t.events = s.events ∧ t.seen = s.seen ∧
    (i ≠ .horner → t.acc = s.acc) ∧ (i ≠ .prepare → KeepsParams s t ∧ t.fresh = s.fresh)

/-- R26, R300: a command that completes with an error changes only STATUS, with the one exception of
PREPARE. -/
def Obligations.FailedCommandChangesOnlyStatus : Prop :=
  ∀ (i : Instr) (s t : State), i ≠ .prepare → exec i s = .next t → t.err ≠ .none →
    t = { s with err := t.err, busy := false, done := true }

/-- R33: PVALID rises only by the completion of a PREPARE that succeeds. Reset, the completion of a PREPARE
that fails, and every accepted write to the PMEM window leave it 0; a host read leaves it as it is; nothing
else clears it. -/
def Obligations.PvalidTransitions : Prop :=
  ∀ s t : State, step s = .next t →
    (s.pvalid = false → t.pvalid = true →
      s.busy = true ∧ decode s.cmd = .ok .prepare ∧ t.completedWith .none) ∧
    (∀ es, s.events = .reset :: es → t.pvalid = false) ∧
    (s.busy = true → t.completedWith .prepareFail → t.pvalid = false) ∧
    (∀ haddr size v es, s.events = .write haddr size v :: es →
      (s.hostWrite haddr size v).1 = .ok → inPmem haddr.toNat → t.pvalid = false) ∧
    (∀ haddr size es, s.events = .read haddr size :: es → t.pvalid = s.pvalid) ∧
    (s.pvalid = true → t.pvalid = false →
      (∃ es, s.events = .reset :: es) ∨
      (s.busy = true ∧ decode s.cmd = .ok .prepare ∧ t.completedWith .prepareFail) ∨
      (∃ haddr size v es, s.events = .write haddr size v :: es ∧
        (s.hostWrite haddr size v).1 = .ok ∧ inPmem haddr.toNat))

/-- R9, R34, R46, R73, R340: what changes the memories. The size of DMEM never
changes. PMEM changes only by the completion of a PREPARE, by an accepted write to its window, or by reset;
DMEM only by an accepted write to its window, or by reset. -/
def Obligations.WhatChangesTheMemories : Prop :=
  ∀ s t : State, step s = .next t →
    t.dmem.size = s.dmem.size ∧
    ((∃ w, t.pmem.word w ≠ s.pmem.word w) →
      (s.busy = true ∧ decode s.cmd = .ok .prepare ∧ t.busy = false ∧ t.done = true) ∨
      (∃ haddr size v es, s.events = .write haddr size v :: es ∧
        (s.hostWrite haddr size v).1 = .ok ∧ inPmem haddr.toNat) ∨
      (∃ es, s.events = .reset :: es)) ∧
    ((∃ a, t.dmem.read a ≠ s.dmem.read a) →
      (∃ haddr size v es, s.events = .write haddr size v :: es ∧
        (s.hostWrite haddr size v).1 = .ok ∧ inDmem s.dmem.size haddr.toNat) ∨
      (∃ es, s.events = .reset :: es))

/-- R28, R32, R44: the invariant of the machine is kept by every step. -/
def Obligations.EveryStepKeepsTheInvariant : Prop :=
  ∀ s t : State, s.Inv → step s = .next t → t.Inv

/-- The invariant holds right after reset. -/
def Obligations.InvariantHoldsAtReset : Prop := State.reset.Inv
end

