-- ==== Sys2Proof/Laws/State.lean ====
section
/-! SUPPORT. One lemma per field for each named update of the state: what a field is afterwards. -/

namespace Sys2Proof.Machine

section acceptCommand
variable (s : State) (v : Word)

@[simp] theorem acceptCommand_a : (s.acceptCommand v).a = s.a := rfl
@[simp] theorem acceptCommand_b : (s.acceptCommand v).b = s.b := rfl
@[simp] theorem acceptCommand_acc : (s.acceptCommand v).acc = s.acc := rfl
@[simp] theorem acceptCommand_m0 : (s.acceptCommand v).m0 = s.m0 := rfl
@[simp] theorem acceptCommand_m1 : (s.acceptCommand v).m1 = s.m1 := rfl
@[simp] theorem acceptCommand_seed : (s.acceptCommand v).seed = s.seed := rfl
@[simp] theorem acceptCommand_dptr : (s.acceptCommand v).dptr = s.dptr := rfl
@[simp] theorem acceptCommand_dlen : (s.acceptCommand v).dlen = s.dlen := rfl
@[simp] theorem acceptCommand_res0 : (s.acceptCommand v).res0 = s.res0 := rfl
@[simp] theorem acceptCommand_res1 : (s.acceptCommand v).res1 = s.res1 := rfl
@[simp] theorem acceptCommand_cmd : (s.acceptCommand v).cmd = v := rfl
@[simp] theorem acceptCommand_busy : (s.acceptCommand v).busy = true := rfl
@[simp] theorem acceptCommand_done : (s.acceptCommand v).done = false := rfl
@[simp] theorem acceptCommand_pvalid : (s.acceptCommand v).pvalid = s.pvalid := rfl
@[simp] theorem acceptCommand_err : (s.acceptCommand v).err = .none := rfl
@[simp] theorem acceptCommand_pmem : (s.acceptCommand v).pmem = s.pmem := rfl
@[simp] theorem acceptCommand_dmem : (s.acceptCommand v).dmem = s.dmem := rfl
@[simp] theorem acceptCommand_events : (s.acceptCommand v).events = s.events := rfl
@[simp] theorem acceptCommand_seen : (s.acceptCommand v).seen = s.seen := rfl
@[simp] theorem acceptCommand_fresh : (s.acceptCommand v).fresh = s.fresh := rfl

end acceptCommand

section raiseErr
variable (s : State) (e : ErrCode)

@[simp] theorem raiseErr_a : (s.raiseErr e).a = s.a := rfl
@[simp] theorem raiseErr_b : (s.raiseErr e).b = s.b := rfl
@[simp] theorem raiseErr_acc : (s.raiseErr e).acc = s.acc := rfl
@[simp] theorem raiseErr_m0 : (s.raiseErr e).m0 = s.m0 := rfl
@[simp] theorem raiseErr_m1 : (s.raiseErr e).m1 = s.m1 := rfl
@[simp] theorem raiseErr_seed : (s.raiseErr e).seed = s.seed := rfl
@[simp] theorem raiseErr_dptr : (s.raiseErr e).dptr = s.dptr := rfl
@[simp] theorem raiseErr_dlen : (s.raiseErr e).dlen = s.dlen := rfl
@[simp] theorem raiseErr_res0 : (s.raiseErr e).res0 = s.res0 := rfl
@[simp] theorem raiseErr_res1 : (s.raiseErr e).res1 = s.res1 := rfl
@[simp] theorem raiseErr_cmd : (s.raiseErr e).cmd = s.cmd := rfl
@[simp] theorem raiseErr_busy : (s.raiseErr e).busy = false := rfl
@[simp] theorem raiseErr_done : (s.raiseErr e).done = true := rfl
@[simp] theorem raiseErr_pvalid : (s.raiseErr e).pvalid = s.pvalid := rfl
@[simp] theorem raiseErr_err : (s.raiseErr e).err = e := rfl
@[simp] theorem raiseErr_pmem : (s.raiseErr e).pmem = s.pmem := rfl
@[simp] theorem raiseErr_dmem : (s.raiseErr e).dmem = s.dmem := rfl
@[simp] theorem raiseErr_events : (s.raiseErr e).events = s.events := rfl
@[simp] theorem raiseErr_seen : (s.raiseErr e).seen = s.seen := rfl
@[simp] theorem raiseErr_fresh : (s.raiseErr e).fresh = s.fresh := rfl

end raiseErr

section finish
variable (s : State) (r0 r1 : Word)

@[simp] theorem finish_a : (s.finish r0 r1).a = s.a := rfl
@[simp] theorem finish_b : (s.finish r0 r1).b = s.b := rfl
@[simp] theorem finish_acc : (s.finish r0 r1).acc = s.acc := rfl
@[simp] theorem finish_m0 : (s.finish r0 r1).m0 = s.m0 := rfl
@[simp] theorem finish_m1 : (s.finish r0 r1).m1 = s.m1 := rfl
@[simp] theorem finish_seed : (s.finish r0 r1).seed = s.seed := rfl
@[simp] theorem finish_dptr : (s.finish r0 r1).dptr = s.dptr := rfl
@[simp] theorem finish_dlen : (s.finish r0 r1).dlen = s.dlen := rfl
@[simp] theorem finish_res0 : (s.finish r0 r1).res0 = r0 := rfl
@[simp] theorem finish_res1 : (s.finish r0 r1).res1 = r1 := rfl
@[simp] theorem finish_cmd : (s.finish r0 r1).cmd = s.cmd := rfl
@[simp] theorem finish_busy : (s.finish r0 r1).busy = false := rfl
@[simp] theorem finish_done : (s.finish r0 r1).done = true := rfl
@[simp] theorem finish_pvalid : (s.finish r0 r1).pvalid = s.pvalid := rfl
@[simp] theorem finish_err : (s.finish r0 r1).err = .none := rfl
@[simp] theorem finish_pmem : (s.finish r0 r1).pmem = s.pmem := rfl
@[simp] theorem finish_dmem : (s.finish r0 r1).dmem = s.dmem := rfl
@[simp] theorem finish_events : (s.finish r0 r1).events = s.events := rfl
@[simp] theorem finish_seen : (s.finish r0 r1).seen = s.seen := rfl
@[simp] theorem finish_fresh : (s.finish r0 r1).fresh = s.fresh := rfl

end finish

section finishWide
variable (s : State) (r : DWord)

@[simp] theorem finishWide_a : (s.finishWide r).a = s.a := rfl
@[simp] theorem finishWide_b : (s.finishWide r).b = s.b := rfl
@[simp] theorem finishWide_acc : (s.finishWide r).acc = s.acc := rfl
@[simp] theorem finishWide_m0 : (s.finishWide r).m0 = s.m0 := rfl
@[simp] theorem finishWide_m1 : (s.finishWide r).m1 = s.m1 := rfl
@[simp] theorem finishWide_seed : (s.finishWide r).seed = s.seed := rfl
@[simp] theorem finishWide_dptr : (s.finishWide r).dptr = s.dptr := rfl
@[simp] theorem finishWide_dlen : (s.finishWide r).dlen = s.dlen := rfl
@[simp] theorem finishWide_res0 : (s.finishWide r).res0 = lo64 r := rfl
@[simp] theorem finishWide_res1 : (s.finishWide r).res1 = hi64 r := rfl
@[simp] theorem finishWide_cmd : (s.finishWide r).cmd = s.cmd := rfl
@[simp] theorem finishWide_busy : (s.finishWide r).busy = false := rfl
@[simp] theorem finishWide_done : (s.finishWide r).done = true := rfl
@[simp] theorem finishWide_pvalid : (s.finishWide r).pvalid = s.pvalid := rfl
@[simp] theorem finishWide_err : (s.finishWide r).err = .none := rfl
@[simp] theorem finishWide_pmem : (s.finishWide r).pmem = s.pmem := rfl
@[simp] theorem finishWide_dmem : (s.finishWide r).dmem = s.dmem := rfl
@[simp] theorem finishWide_events : (s.finishWide r).events = s.events := rfl
@[simp] theorem finishWide_seen : (s.finishWide r).seen = s.seen := rfl
@[simp] theorem finishWide_fresh : (s.finishWide r).fresh = s.fresh := rfl

end finishWide

section passPrepare
variable (s : State) (p : Pmem)

@[simp] theorem passPrepare_a : (s.passPrepare p).a = s.a := rfl
@[simp] theorem passPrepare_b : (s.passPrepare p).b = s.b := rfl
@[simp] theorem passPrepare_acc : (s.passPrepare p).acc = s.acc := rfl
@[simp] theorem passPrepare_m0 : (s.passPrepare p).m0 = s.m0 := rfl
@[simp] theorem passPrepare_m1 : (s.passPrepare p).m1 = s.m1 := rfl
@[simp] theorem passPrepare_seed : (s.passPrepare p).seed = s.seed := rfl
@[simp] theorem passPrepare_dptr : (s.passPrepare p).dptr = s.dptr := rfl
@[simp] theorem passPrepare_dlen : (s.passPrepare p).dlen = s.dlen := rfl
@[simp] theorem passPrepare_res0 : (s.passPrepare p).res0 = 1 := rfl
@[simp] theorem passPrepare_res1 : (s.passPrepare p).res1 = 0 := rfl
@[simp] theorem passPrepare_cmd : (s.passPrepare p).cmd = s.cmd := rfl
@[simp] theorem passPrepare_busy : (s.passPrepare p).busy = false := rfl
@[simp] theorem passPrepare_done : (s.passPrepare p).done = true := rfl
@[simp] theorem passPrepare_pvalid : (s.passPrepare p).pvalid = true := rfl
@[simp] theorem passPrepare_err : (s.passPrepare p).err = .none := rfl
@[simp] theorem passPrepare_pmem : (s.passPrepare p).pmem = p := rfl
@[simp] theorem passPrepare_dmem : (s.passPrepare p).dmem = s.dmem := rfl
@[simp] theorem passPrepare_events : (s.passPrepare p).events = s.events := rfl
@[simp] theorem passPrepare_seen : (s.passPrepare p).seen = s.seen := rfl
@[simp] theorem passPrepare_fresh : (s.passPrepare p).fresh = s.fresh := rfl

end passPrepare

section failPrepare
variable (s : State)

@[simp] theorem failPrepare_a : s.failPrepare.a = s.a := rfl
@[simp] theorem failPrepare_b : s.failPrepare.b = s.b := rfl
@[simp] theorem failPrepare_acc : s.failPrepare.acc = s.acc := rfl
@[simp] theorem failPrepare_m0 : s.failPrepare.m0 = s.m0 := rfl
@[simp] theorem failPrepare_m1 : s.failPrepare.m1 = s.m1 := rfl
@[simp] theorem failPrepare_seed : s.failPrepare.seed = s.seed := rfl
@[simp] theorem failPrepare_dptr : s.failPrepare.dptr = s.dptr := rfl
@[simp] theorem failPrepare_dlen : s.failPrepare.dlen = s.dlen := rfl
@[simp] theorem failPrepare_res0 : s.failPrepare.res0 = 0 := rfl
@[simp] theorem failPrepare_res1 : s.failPrepare.res1 = 0 := rfl
@[simp] theorem failPrepare_cmd : s.failPrepare.cmd = s.cmd := rfl
@[simp] theorem failPrepare_busy : s.failPrepare.busy = false := rfl
@[simp] theorem failPrepare_done : s.failPrepare.done = true := rfl
@[simp] theorem failPrepare_pvalid : s.failPrepare.pvalid = false := rfl
@[simp] theorem failPrepare_err : s.failPrepare.err = .prepareFail := rfl
@[simp] theorem failPrepare_pmem : s.failPrepare.pmem = pmemOf (Config.pmemAfterFailure s.fresh) := rfl
@[simp] theorem failPrepare_dmem : s.failPrepare.dmem = s.dmem := rfl
@[simp] theorem failPrepare_events : s.failPrepare.events = s.events := rfl
@[simp] theorem failPrepare_seen : s.failPrepare.seen = s.seen := rfl
@[simp] theorem failPrepare_fresh : s.failPrepare.fresh = s.fresh + 1 := rfl

end failPrepare

section writePmem
variable (s : State) (w : Nat) (v : Word)

@[simp] theorem writePmem_a : (s.writePmem w v).a = s.a := rfl
@[simp] theorem writePmem_b : (s.writePmem w v).b = s.b := rfl
@[simp] theorem writePmem_acc : (s.writePmem w v).acc = s.acc := rfl
@[simp] theorem writePmem_m0 : (s.writePmem w v).m0 = s.m0 := rfl
@[simp] theorem writePmem_m1 : (s.writePmem w v).m1 = s.m1 := rfl
@[simp] theorem writePmem_seed : (s.writePmem w v).seed = s.seed := rfl
@[simp] theorem writePmem_dptr : (s.writePmem w v).dptr = s.dptr := rfl
@[simp] theorem writePmem_dlen : (s.writePmem w v).dlen = s.dlen := rfl
@[simp] theorem writePmem_res0 : (s.writePmem w v).res0 = s.res0 := rfl
@[simp] theorem writePmem_res1 : (s.writePmem w v).res1 = s.res1 := rfl
@[simp] theorem writePmem_cmd : (s.writePmem w v).cmd = s.cmd := rfl
@[simp] theorem writePmem_busy : (s.writePmem w v).busy = s.busy := rfl
@[simp] theorem writePmem_done : (s.writePmem w v).done = s.done := rfl
@[simp] theorem writePmem_pvalid : (s.writePmem w v).pvalid = false := rfl
@[simp] theorem writePmem_err : (s.writePmem w v).err = s.err := rfl
@[simp] theorem writePmem_pmem : (s.writePmem w v).pmem = s.pmem.setWord w v := rfl
@[simp] theorem writePmem_dmem : (s.writePmem w v).dmem = s.dmem := rfl
@[simp] theorem writePmem_events : (s.writePmem w v).events = s.events := rfl
@[simp] theorem writePmem_seen : (s.writePmem w v).seen = s.seen := rfl
@[simp] theorem writePmem_fresh : (s.writePmem w v).fresh = s.fresh := rfl

end writePmem

section observe
variable (s : State) (r : HostResult)

@[simp] theorem observe_a : (s.observe r).a = s.a := rfl
@[simp] theorem observe_b : (s.observe r).b = s.b := rfl
@[simp] theorem observe_acc : (s.observe r).acc = s.acc := rfl
@[simp] theorem observe_m0 : (s.observe r).m0 = s.m0 := rfl
@[simp] theorem observe_m1 : (s.observe r).m1 = s.m1 := rfl
@[simp] theorem observe_seed : (s.observe r).seed = s.seed := rfl
@[simp] theorem observe_dptr : (s.observe r).dptr = s.dptr := rfl
@[simp] theorem observe_dlen : (s.observe r).dlen = s.dlen := rfl
@[simp] theorem observe_res0 : (s.observe r).res0 = s.res0 := rfl
@[simp] theorem observe_res1 : (s.observe r).res1 = s.res1 := rfl
@[simp] theorem observe_cmd : (s.observe r).cmd = s.cmd := rfl
@[simp] theorem observe_busy : (s.observe r).busy = s.busy := rfl
@[simp] theorem observe_done : (s.observe r).done = s.done := rfl
@[simp] theorem observe_pvalid : (s.observe r).pvalid = s.pvalid := rfl
@[simp] theorem observe_err : (s.observe r).err = s.err := rfl
@[simp] theorem observe_pmem : (s.observe r).pmem = s.pmem := rfl
@[simp] theorem observe_dmem : (s.observe r).dmem = s.dmem := rfl
@[simp] theorem observe_events : (s.observe r).events = s.events := rfl
@[simp] theorem observe_seen : (s.observe r).seen = s.seen ++ [r] := rfl
@[simp] theorem observe_fresh : (s.observe r).fresh = s.fresh := rfl

end observe

section resetInput
variable (s : State)

@[simp] theorem resetInput_a : s.resetInput.a = 0 := rfl
@[simp] theorem resetInput_b : s.resetInput.b = 0 := rfl
@[simp] theorem resetInput_acc : s.resetInput.acc = 0 := rfl
@[simp] theorem resetInput_m0 : s.resetInput.m0 = 0 := rfl
@[simp] theorem resetInput_m1 : s.resetInput.m1 = 0 := rfl
@[simp] theorem resetInput_seed : s.resetInput.seed = 0 := rfl
@[simp] theorem resetInput_dptr : s.resetInput.dptr = 0 := rfl
@[simp] theorem resetInput_dlen : s.resetInput.dlen = 0 := rfl
@[simp] theorem resetInput_res0 : s.resetInput.res0 = 0 := rfl
@[simp] theorem resetInput_res1 : s.resetInput.res1 = 0 := rfl
@[simp] theorem resetInput_cmd : s.resetInput.cmd = 0 := rfl
@[simp] theorem resetInput_busy : s.resetInput.busy = false := rfl
@[simp] theorem resetInput_done : s.resetInput.done = false := rfl
@[simp] theorem resetInput_pvalid : s.resetInput.pvalid = false := rfl
@[simp] theorem resetInput_err : s.resetInput.err = .none := rfl
@[simp] theorem resetInput_pmem : s.resetInput.pmem = pmemOf (Config.pmemReset (s.fresh + 1)) := rfl
@[simp] theorem resetInput_dmem : s.resetInput.dmem = ⟨s.dmem.size, s.fresh + 1, []⟩ := rfl
@[simp] theorem resetInput_events : s.resetInput.events = s.events := rfl
@[simp] theorem resetInput_seen : s.resetInput.seen = s.seen := rfl
@[simp] theorem resetInput_fresh : s.resetInput.fresh = s.fresh + 1 := rfl

end resetInput

end Sys2Proof.Machine
end

