-- ==== Sys2Proof/Laws/Memory.lean ====
section
/-! SUPPORT. DMEM and PMEM: a read after a write, and the canonical form of DMEM that every operation
keeps. -/

namespace Sys2Proof.Machine

/-! ## One byte of DMEM -/

@[simp] theorem write_size (m : Memory) (a : Nat) (b : Byte) : (m.write a b).size = m.size := rfl

@[simp] theorem memWrite_size (m : Memory) (a : Nat) (v : Word) (n : Nat) :
    (memWrite m a v n).size = m.size := by
  induction n with
  | zero => rfl
  | succ n ih => simpa [memWrite] using ih

theorem lookupCell_insertCell (a : Nat) (b : Byte) (x : Nat) (cells : List Host.Cell) :
    lookupCell x (insertCell a b cells) = if x = a then some b else lookupCell x cells := by
  induction cells with
  | nil => simp [insertCell, lookupCell]
  | cons c rest ih =>
    obtain ⟨k, v⟩ := c
    simp only [insertCell]
    split_ifs with h1 h2 <;> simp only [lookupCell] <;> split_ifs <;> simp_all

/-- Reading after a write: the written byte there, the old byte elsewhere. -/
theorem read_write (m : Memory) (a : Nat) (b : Byte) (x : Nat) :
    (m.write a b).read x = if x = a then b else m.read x := by
  by_cases h : x = a <;>
    simp [Memory.read, Memory.write, Memory.unlisted, lookupCell_insertCell, h]

/-- A write of bytes `a … a+n−1` sets each to its byte of the value and leaves every other byte. -/
theorem read_memWrite (m : Memory) (a : Nat) (v : Word) (n x : Nat) :
    (memWrite m a v n).read x =
      if a ≤ x ∧ x < a + n then byteOf v (x - a) else m.read x := by
  induction n with
  | zero =>
    have : ¬(a ≤ x ∧ x < a) := by omega
    simp [memWrite, this]
  | succ n ih =>
    simp only [memWrite, read_write, ih]
    by_cases h : x = a + n
    · subst h; simp
    · have : (a ≤ x ∧ x < a + (n + 1)) ↔ (a ≤ x ∧ x < a + n) := by omega
      simp [h, this]

/-- MemRead depends only on the bytes it reads. -/
theorem memRead_congr {m m' : Memory} {a a' : Nat} (n : Nat)
    (h : ∀ j < n, m.read (a + j) = m'.read (a' + j)) : memRead m a n = memRead m' a' n := by
  induction n generalizing a a' with
  | zero => rfl
  | succ n ih =>
    have h0 := h 0 (by omega)
    have hs := ih (a := a + 1) (a' := a' + 1) fun j hj => by
      have := h (j + 1) (by omega)
      rwa [show a + 1 + j = a + (j + 1) by omega, show a' + 1 + j = a' + (j + 1) by omega]
    simp only [memRead, hs]
    simp only [Nat.add_zero] at h0
    rw [h0]

/-- A read of `n` bytes is below `2^(8n)` (20_memory.md R62). -/
theorem memRead_lt (m : Memory) (a n : Nat) : memRead m a n < 2 ^ (8 * n) := by
  induction n generalizing a with
  | zero => simp [memRead]
  | succ n ih =>
    have h1 := (m.read a).isLt
    have h2 := ih (a + 1)
    have : 2 ^ (8 * (n + 1)) = 2 ^ 8 * 2 ^ (8 * n) := by rw [← pow_add]; ring_nf
    simp only [memRead]
    omega

/-- Byte `j` of a read. -/
theorem memRead_byte (m : Memory) (addr : Nat) {n j : Nat} (h : j < n) :
    memRead m addr n / 2 ^ (8 * j) % 2 ^ 8 = (m.read (addr + j)).toNat := by
  induction j generalizing addr n with
  | zero =>
    obtain ⟨n, rfl⟩ : ∃ k, n = k + 1 := ⟨n - 1, by omega⟩
    have := (m.read addr).isLt
    simp only [memRead, Nat.mul_zero, pow_zero, Nat.div_one, Nat.add_zero]; omega
  | succ j ih =>
    obtain ⟨n, rfl⟩ : ∃ k, n = k + 1 := ⟨n - 1, by omega⟩
    have h1 := (m.read addr).isLt
    rw [show 8 * (j + 1) = 8 + 8 * j by ring, pow_add, ← Nat.div_div_eq_div_mul, memRead,
      show addr + (j + 1) = addr + 1 + j by omega, ← ih (addr + 1) (n := n) (by omega)]
    congr 2
    omega

/-! ## Bytes of a word -/

/-- Byte `j` of a word (20_memory.md R60). -/
theorem byteOf_toNat (v : Word) (j : Nat) : (byteOf v j).toNat = v.toNat / 2 ^ (8 * j) % 2 ^ 8 := by
  simp [byteOf, Nat.shiftRight_eq_div_pow]

/-- Replacing byte lane `j` of a word replaces just that (20_memory.md R73). -/
theorem byteOf_setByte (v : Word) {j k : Nat} (b : Byte) (hj : j < 8) (hk : k < 8) :
    byteOf (setByte v j b) k = if k = j then b else byteOf v k := by
  apply BitVec.eq_of_getLsbD_eq
  intro i hi
  simp only [byteOf, setByte, BitVec.getLsbD_extractLsb', hi, decide_true, Bool.true_and,
    BitVec.getLsbD_or, BitVec.getLsbD_and, BitVec.getLsbD_not, BitVec.getLsbD_shiftLeft,
    BitVec.truncate_eq_setWidth, BitVec.getLsbD_setWidth]
  have h64 : 8 * k + i < 64 := by omega
  by_cases h : k = j
  · subst h
    have hm : (255#64).getLsbD i = true := by
      have : ∀ i < 8, (255#64).getLsbD i = true := by decide
      exact this i hi
    simp [h64, hm]
    intro; omega
  · by_cases h1 : 8 * k + i < 8 * j
    · simp [h, h1, hi, h64]
    · have h2 : 8 ≤ 8 * k + i - 8 * j := by omega
      have hm : (255#64).getLsbD (8 * k + i - 8 * j) = false := by
        rw [show (255#64) = (255#8).setWidth 64 by rfl, BitVec.getLsbD_setWidth,
          BitVec.getLsbD_of_ge _ _ h2, Bool.and_false]
      have hb : b.getLsbD (8 * k + i - 8 * j) = false := BitVec.getLsbD_of_ge b _ h2
      simp [h, h1, hi, h64, hm, hb]

/-! ## The canonical form -/

theorem cellsWf_mono {size low low' : Nat} (h : low' ≤ low) {cells : List Host.Cell}
    (hw : cellsWf size low cells = true) : cellsWf size low' cells = true := by
  cases cells with
  | nil => rfl
  | cons c rest =>
    obtain ⟨k, v⟩ := c
    simp only [cellsWf, Bool.and_eq_true, decide_eq_true_eq] at hw ⊢
    exact ⟨⟨by omega, hw.1.2⟩, hw.2⟩

theorem cellsWf_insertCell {size a : Nat} (b : Byte) (ha : a < size) {low : Nat}
    (hl : low ≤ a) {cells : List Host.Cell} (hw : cellsWf size low cells = true) :
    cellsWf size low (insertCell a b cells) = true := by
  induction cells generalizing low with
  | nil => simp [insertCell, cellsWf, hl, ha]
  | cons c rest ih =>
    obtain ⟨k, v⟩ := c
    simp only [cellsWf, Bool.and_eq_true, decide_eq_true_eq] at hw
    simp only [insertCell]
    split_ifs with h1 h2
    · simp only [cellsWf, Bool.and_eq_true, decide_eq_true_eq]
      exact ⟨⟨hl, ha⟩, ⟨by omega, hw.1.2⟩, hw.2⟩
    · subst h2
      simp only [cellsWf, Bool.and_eq_true, decide_eq_true_eq]
      exact ⟨⟨hl, ha⟩, hw.2⟩
    · simp only [cellsWf, Bool.and_eq_true, decide_eq_true_eq]
      exact ⟨hw.1, ih (by omega) hw.2⟩

/-- A write inside DMEM keeps the canonical form. -/
theorem write_wf {m : Memory} {a : Nat} (b : Byte) (ha : a < m.size)
    (hm : m.wf = true) : (m.write a b).wf = true :=
  cellsWf_insertCell b ha (Nat.zero_le a) hm

/-- A write of `n` bytes inside DMEM keeps the canonical form. -/
theorem memWrite_wf {m : Memory} {a : Nat} (v : Word) {n : Nat} (ha : a + n ≤ m.size)
    (hm : m.wf = true) : (memWrite m a v n).wf = true := by
  induction n with
  | zero => exact hm
  | succ n ih => exact write_wf _ (by rw [memWrite_size]; omega) (ih (by omega))

/-- DMEM right after any reset has the canonical form. -/
theorem resetAt_dmem_wf (size n : Nat) : (State.resetAt size n).dmem.wf = true := rfl

/-! ## PMEM -/

theorem word_setWord (p : Pmem) (w : Nat) (v : Word) (x : Nat) :
    (p.setWord w v).word x = if x = w ∧ w < Config.pmemWords then v else p.word x := by
  simp only [Pmem.word, Pmem.setWord, Vector.getElem?_setIfInBounds]
  by_cases h : w = x
  · subst h
    by_cases hw : w < 68
    · simp [hw]
    · simp [hw]
  · simp [h, Ne.symm h]

/-- Writing words from `w` on: each word in the written range that exists holds its value. -/
theorem word_setWords (p : Pmem) (w : Nat) (vs : List Word) (x : Nat) :
    (p.setWords w vs).word x =
      if w ≤ x ∧ x < w + vs.length ∧ x < Config.pmemWords then vs.getD (x - w) 0
      else p.word x := by
  induction vs generalizing p w with
  | nil =>
    have : ¬(w ≤ x ∧ x < w + ([] : List Word).length ∧ x < Config.pmemWords) := by
      simp only [List.length_nil]; omega
    rw [if_neg this]; rfl
  | cons v vs ih =>
    simp only [Pmem.setWords, ih, word_setWord, List.length_cons]
    by_cases h : x = w
    · subst h
      have h1 : ¬(x + 1 ≤ x ∧ x < x + 1 + vs.length ∧ x < Config.pmemWords) := by omega
      by_cases h2 : x < Config.pmemWords
      · simp [h2]
      · simp [h2]
    · by_cases h1 : w + 1 ≤ x ∧ x < w + 1 + vs.length ∧ x < Config.pmemWords
      · have h2 : w ≤ x ∧ x < w + (vs.length + 1) ∧ x < Config.pmemWords := by omega
        rw [if_pos h1, if_pos h2]
        obtain ⟨d, hd⟩ : ∃ d, x = w + 1 + d := ⟨x - (w + 1), by omega⟩
        subst hd
        rw [show w + 1 + d - (w + 1) = d by omega, show w + 1 + d - w = d + 1 by omega]
        rfl
      · have h2 : ¬(w ≤ x ∧ x < w + (vs.length + 1) ∧ x < Config.pmemWords) := by omega
        rw [if_neg h1, if_neg h2, if_neg (by simp [h])]

theorem word_pmemOf (f : Nat → Word) {w : Nat} (h : w < Config.pmemWords) :
    (pmemOf f).word w = f w := by
  have h' : w < 68 := h
  simp [Pmem.word, pmemOf, h']

/-- Two ParamSets with the same words are the same. -/
theorem pmem_ext {p q : Pmem} (h : ∀ w < Config.pmemWords, p.word w = q.word w) : p = q := by
  apply Vector.ext
  intro i hi
  have := h i hi
  simpa [Pmem.word, hi] using this

end Sys2Proof.Machine
end

