-- ==== Sys2Proof/Laws/Ops.lean ====
section
/-! SUPPORT. One lemma for each shared operation that says once what it can do. -/

namespace Sys2Proof.Machine

/-! ## The checks -/

/-- A checked command ends in its result or in the error of its checks, as `raise Err` says. -/
theorem checked_eq (s : State) (e : ErrCode) (t : Unit → State) :
    s.checked e t = if e = .none then t () else s.raiseErr e := by
  cases e <;> rfl

/-- The first error of a list, the head first. -/
theorem firstError_cons (e : ErrCode) (es : List ErrCode) :
    firstError (e :: es) = if e = .none then firstError es else e := by
  cases e <;> rfl

theorem checkParam_eq (v : Bool) : checkParam v = if v = true then .none else .paramInvalid := rfl

/-- What PHFULL's checks give, in their order (60_exceptions.md R302). -/
theorem checkPhfull_eq (s : State) :
    s.checkPhfull = if s.pvalid = false then .paramInvalid
      else if s.dmem.size < s.dptr.toNat + 256 then .dataRange else .none := by
  simp only [State.checkPhfull, firstError_cons, checkParam, checkRange, firstError,
    Config.blockSize, Config.K]
  cases s.pvalid <;> simp

/-- What PHLAST's checks give, in their order (60_exceptions.md R302). -/
theorem checkPhlast_eq (s : State) :
    s.checkPhlast = if s.pvalid = false then .paramInvalid
      else if s.dlen.toNat = 0 ∨ 256 < s.dlen.toNat then .lenRange
      else if s.dptr.toNat + s.dlen.toNat < 16 ∨ s.dmem.size < s.dptr.toNat + s.dlen.toNat then
        .dataRange
      else .none := by
  simp only [State.checkPhlast, firstError_cons, checkParam, checkLen, checkRange, firstError,
    Config.blockSize, Config.K]
  cases s.pvalid <;> simp
  split_ifs <;> simp_all

/-- What the checks of HASH and FPRINT give, in their order (60_exceptions.md R302). -/
theorem checkHash_eq (s : State) :
    s.checkHash = if s.pvalid = false then .paramInvalid
      else if s.dmem.size < s.dptr.toNat + s.dlen.toNat then .dataRange else .none := by
  simp only [State.checkHash, firstError_cons, checkParam, checkRange, firstError]
  cases s.pvalid <;> simp

/-! ## The commands that check: what each can end in -/

/-- PHFULL (41_ph.md R184). -/
theorem execPhfull_eq (w : Bool) (s : State) :
    execPhfull w s = .next (if s.pvalid = false then s.raiseErr .paramInvalid
      else if s.dmem.size < s.dptr.toNat + 256 then s.raiseErr .dataRange
      else s.finishWide (phFullBlock s.dmem (s.pmem.view w) s.seed s.dptr.toNat)) := by
  rw [execPhfull, checked_eq, checkPhfull_eq]
  split_ifs <;> simp_all

/-- PHLAST (41_ph.md R188). -/
theorem execPhlast_eq (w : Bool) (s : State) :
    execPhlast w s = .next (if s.pvalid = false then s.raiseErr .paramInvalid
      else if s.dlen.toNat = 0 ∨ 256 < s.dlen.toNat then s.raiseErr .lenRange
      else if s.dptr.toNat + s.dlen.toNat < 16 ∨ s.dmem.size < s.dptr.toNat + s.dlen.toNat then
        s.raiseErr .dataRange
      else s.finishWide
        (phLastBlock s.dmem (s.pmem.view w) s.seed s.dptr.toNat s.dlen.toNat)) := by
  rw [execPhlast, checked_eq, checkPhlast_eq]
  split_ifs <;> simp_all

/-- HASH (45_dispatch.md R283). -/
theorem execHash_eq (w : Bool) (s : State) :
    execHash w s = .next (if s.pvalid = false then s.raiseErr .paramInvalid
      else if s.dmem.size < s.dptr.toNat + s.dlen.toNat then s.raiseErr .dataRange
      else s.finish (s.digest w) 0) := by
  rw [execHash, checked_eq, checkHash_eq]
  split_ifs <;> simp_all

/-- FPRINT (45_dispatch.md R284). -/
theorem execFprint_eq (s : State) :
    execFprint s = .next (if s.pvalid = false then s.raiseErr .paramInvalid
      else if s.dmem.size < s.dptr.toNat + s.dlen.toNat then s.raiseErr .dataRange
      else s.finish (s.digest false) (s.digest true)) := by
  rw [execFprint, checked_eq, checkHash_eq]
  split_ifs <;> simp_all

/-- PREPARE passes with a repaired ParamSet or fails (44_prepare.md R256). -/
theorem execPrepare_cases (s : State) :
    (∃ p, prepare s.pmem = some p ∧ execPrepare s = .next (s.passPrepare p)) ∨
    (prepare s.pmem = none ∧ execPrepare s = .next s.failPrepare) := by
  unfold execPrepare
  cases prepare s.pmem with
  | none => exact .inr ⟨rfl, rfl⟩
  | some p => exact .inl ⟨p, rfl, rfl⟩

/-- What a command can end in: its results; an error; for HORNER also ACC; for PREPARE a ParamSet or its
failure. -/
theorem exec_cases (i : Instr) (s : State) :
    (∃ r0 r1, exec i s = .next (s.finish r0 r1)) ∨
    (∃ e ∈ mayRaise i, exec i s = .next (s.raiseErr e)) ∨
    (i = .horner ∧ ∃ r, exec i s = .next { s.finish r 0 with acc := r}) ∨
    (i = .prepare ∧ ((∃ p, prepare s.pmem = some p ∧ exec i s = .next (s.passPrepare p)) ∨
      exec i s = .next s.failPrepare)) := by
  cases i with
  | horner => exact .inr (.inr (.inl ⟨rfl, _, rfl⟩))
  | prepare =>
    refine .inr (.inr (.inr ⟨rfl, ?_⟩))
    rcases execPrepare_cases s with ⟨p, h, h'⟩ | ⟨h, h'⟩
    · exact .inl ⟨p, h, h'⟩
    · exact .inr h'
  | phfull w =>
    have h := execPhfull_eq w s
    split_ifs at h
    · exact .inr (.inl ⟨_, by simp [mayRaise], h⟩)
    · exact .inr (.inl ⟨_, by simp [mayRaise], h⟩)
    · exact .inl ⟨_, _, h⟩
  | phlast w =>
    have h := execPhlast_eq w s
    split_ifs at h
    · exact .inr (.inl ⟨_, by simp [mayRaise], h⟩)
    · exact .inr (.inl ⟨_, by simp [mayRaise], h⟩)
    · exact .inr (.inl ⟨_, by simp [mayRaise], h⟩)
    · exact .inl ⟨_, _, h⟩
  | hash w =>
    have h := execHash_eq w s
    split_ifs at h
    · exact .inr (.inl ⟨_, by simp [mayRaise], h⟩)
    · exact .inr (.inl ⟨_, by simp [mayRaise], h⟩)
    · exact .inl ⟨_, _, h⟩
  | fprint =>
    have h := execFprint_eq s
    split_ifs at h
    · exact .inr (.inl ⟨_, by simp [mayRaise], h⟩)
    · exact .inr (.inl ⟨_, by simp [mayRaise], h⟩)
    · exact .inl ⟨_, _, h⟩
  | _ => exact .inl ⟨_, _, rfl⟩

/-! ## The host port -/

/-- What a host write can do: nothing, with `resp = ERR`; or, while not BUSY, its effect at the place
the map gives. -/
theorem hostWrite_cases (s : State) (haddr : Word) (size : Nat) (v : Word) :
    s.hostWrite haddr size v = (.err, s) ∨
    ∃ at_ t, s.busy = false ∧ place s.dmem.size haddr.toNat size = some at_ ∧
      s.writePlace at_ v = some t ∧ s.hostWrite haddr size v = (.ok, t) := by
  unfold State.hostWrite
  cases hb : s.busy with
  | true => exact .inl rfl
  | false =>
    cases hp : place s.dmem.size haddr.toNat size with
    | none => exact .inl rfl
    | some at_ =>
      cases hw : s.writePlace at_ v with
      | none => exact .inl (by simp [hw])
      | some t => exact .inr ⟨at_, t, rfl, rfl, hw, by simp [hw]⟩

/-- A host write neither reads nor writes the host's own side: what is still to come, what was seen. -/
theorem hostWrite_hostSide (s : State) (es : List Event) (rs : List HostResult) (haddr : Word) (size : Nat)
    (v : Word) :
    State.hostWrite { s with events := es, seen := rs } haddr size v =
      ((s.hostWrite haddr size v).1,
        { (s.hostWrite haddr size v).2 with events := es, seen := rs }) := by
  unfold State.hostWrite
  by_cases hb : s.busy = true
  · rw [if_pos hb, if_pos hb]
  · rw [if_neg hb, if_neg hb]
    cases place s.dmem.size haddr.toNat size with
    | none => rfl
    | some at_ =>
      cases at_ with
      | reg r => cases r <;> rfl
      | _ => rfl

/-- Where a place lies in the host address space and which size reaches it (20_memory.md R71, R80). -/
def PlaceAt (dmemBytes haddr size : Nat) : Place → Prop
  | .reg r => size = 8 ∧ haddr % 8 = 0 ∧ regAt haddr = some r
  | .pmemWord w => size = 8 ∧ w < 68 ∧ haddr = 0x1000 + 8 * w
  | .pmemByte w j => size = 1 ∧ w < 68 ∧ j < 8 ∧ haddr = 0x1000 + 8 * w + j
  | .dmemWord a => size = 8 ∧ a % 8 = 0 ∧ a < dmemBytes ∧ haddr = 0x10000 + a
  | .dmemByte a => size = 1 ∧ a < dmemBytes ∧ haddr = 0x10000 + a

/-- The places the map gives lie inside their windows. -/
theorem place_at {dmemBytes haddr size : Nat} {at_ : Place}
    (h : place dmemBytes haddr size = some at_) : PlaceAt dmemBytes haddr size at_ := by
  have hb : Config.pmemBase = 0x1000 ∧ Config.dmemBase = 0x10000 ∧
      Config.pmemWords = 68 :=
    ⟨rfl, rfl, rfl⟩
  simp only [place, placeWord, placeByte] at h
  split at h
  · rename_i h8
    split at h
    · cases h
    · split at h
      · cases h
        exact ⟨h8, by omega, by omega⟩
      · split at h
        · cases h
          exact ⟨h8, by omega, by omega, by omega⟩
        · split at h
          · rename_i hr
            cases h
            exact ⟨h8, by omega, hr⟩
          · cases h
  · split at h
    · rename_i h1
      split at h
      · cases h
        exact ⟨h1, by omega, by omega, by omega⟩
      · split at h
        · cases h
          exact ⟨h1, by omega, by omega⟩
        · cases h
    · cases h

/-! The converse: what each address of a window reaches. -/

theorem place_pmemWord {dmemBytes w : Nat} (h : w < 68) :
    place dmemBytes (0x1000 + 8 * w) 8 = some (.pmemWord w) := by
  have hb : Config.pmemBase = 0x1000 ∧ Config.pmemWords = 68 := ⟨rfl, rfl⟩
  rw [place, if_pos rfl, placeWord, if_neg (by omega), if_pos (by omega)]
  rw [show (0x1000 + 8 * w - Config.pmemBase) / 8 = w by omega]

theorem place_pmemByte {dmemBytes w j : Nat} (h : w < 68) (hj : j < 8) :
    place dmemBytes (0x1000 + 8 * w + j) 1 = some (.pmemByte w j) := by
  have hb : Config.pmemBase = 0x1000 ∧ Config.pmemWords = 68 := ⟨rfl, rfl⟩
  rw [place, if_neg (by omega), if_pos rfl, placeByte, if_pos (by omega)]
  rw [show (0x1000 + 8 * w + j - Config.pmemBase) / 8 = w by omega,
    show (0x1000 + 8 * w + j - Config.pmemBase) % 8 = j by omega]

theorem place_dmemWord {dmemBytes a : Nat} (h : a < dmemBytes) (h8 : a % 8 = 0) :
    place dmemBytes (0x10000 + a) 8 = some (.dmemWord a) := by
  have hb : Config.pmemBase = 0x1000 ∧ Config.pmemWords = 68 ∧ Config.dmemBase = 0x10000 :=
    ⟨rfl, rfl, rfl⟩
  rw [place, if_pos rfl, placeWord, if_neg (by omega), if_neg (by omega), if_pos (by omega)]
  rw [show 0x10000 + a - Config.dmemBase = a by omega]

theorem place_dmemByte {dmemBytes a : Nat} (h : a < dmemBytes) :
    place dmemBytes (0x10000 + a) 1 = some (.dmemByte a) := by
  have hb : Config.pmemBase = 0x1000 ∧ Config.pmemWords = 68 ∧ Config.dmemBase = 0x10000 :=
    ⟨rfl, rfl, rfl⟩
  rw [place, if_neg (by omega), if_pos rfl, placeByte, if_neg (by omega), if_pos (by omega)]
  rw [show 0x10000 + a - Config.dmemBase = a by omega]

theorem place_reg (dmemBytes : Nat) (r : Reg) : place dmemBytes (regOffset r) 8 = some (.reg r) := by
  have hb : Config.pmemBase = 0x1000 ∧ Config.pmemWords = 68 ∧ Config.dmemBase = 0x10000 :=
    ⟨rfl, rfl, rfl⟩
  have hr : regOffset r % 8 = 0 ∧ regOffset r < 0x1000 ∧ regAt (regOffset r) = some r := by
    cases r <;> decide
  rw [place, if_pos rfl, placeWord, if_neg (by omega), if_neg (by omega), if_neg (by omega), hr.2.2]

/-- The size of a DMEM that R9 allows, in numbers. -/
theorem sizeOk_iff (s : State) :
    s.sizeOk ↔ 16 ≤ s.dmem.size ∧ s.dmem.size < 2 ^ 63 ∧ s.dmem.size % 8 = 0 := by
  simp [State.sizeOk, paramsWf, Config.T, and_assoc]

theorem haddr_toNat {h : Nat} (hh : h < 2 ^ 64) : (BitVec.ofNat 64 h).toNat = h := by
  rw [BitVec.toNat_ofNat]; omega

/-! ## One step -/

/-- What one step can do: run the pending command or report it illegal, let a host operation act, take a
reset, or leave the state as it is. `s'` is `s` with the first event used up. -/
theorem step_cases {s t : State} (h : step s = .next t) :
    ∃ es, (s.events = es ∨ ∃ e, s.events = e :: es) ∧
      ((s.busy = true ∧ completion { s with events := es } = .next t ∧
          (s.events = [] ∨ s.events = .complete :: es)) ∨
       (s.busy = false ∧ t = { s with events := es } ∧
          (s.events = [] ∨ s.events = .complete :: es)) ∨
       (∃ haddr size, s.events = .read haddr size :: es ∧
          t = State.doRead { s with events := es } haddr size) ∨
       (∃ haddr size v, s.events = .write haddr size v :: es ∧
          t = State.doWrite { s with events := es } haddr size v) ∨
       (s.events = .reset :: es ∧ t = State.resetInput { s with events := es })) := by
  unfold step State.nextMove at h
  split at h
  · rename_i m t' hm
    split at hm
    · rename_i he
      refine ⟨[], .inl he, .inr (.inl ?_)⟩
      unfold State.offerCompletion at hm
      split_ifs at hm with hb
      cases hm; cases h
      exact ⟨by simpa using hb, by rw [← he], .inl he⟩
    · rename_i es he
      refine ⟨es, .inr ⟨_, he⟩, .inr (.inl ?_)⟩
      unfold State.offerCompletion at hm
      split_ifs at hm with hb
      cases hm; cases h
      exact ⟨by simpa using hb, rfl, .inr he⟩
    · rename_i haddr size es he
      cases hm; cases h
      exact ⟨es, .inr ⟨_, he⟩, .inr (.inr (.inl ⟨_, _, he, rfl⟩))⟩
    · rename_i haddr size v es he
      cases hm; cases h
      exact ⟨es, .inr ⟨_, he⟩, .inr (.inr (.inr (.inl ⟨_, _, _, he, rfl⟩)))⟩
    · rename_i es he
      cases hm; cases h
      exact ⟨es, .inr ⟨_, he⟩, .inr (.inr (.inr (.inr ⟨he, rfl⟩)))⟩
  · rename_i m t' hm
    split at hm
    · rename_i he
      unfold State.offerCompletion at hm
      split_ifs at hm with hb
      cases hm
      have hs : { s with events := [] } = s := by rw [← he]
      exact ⟨[], .inl he, .inl ⟨hb, by rw [hs]; exact h, .inl he⟩⟩
    · rename_i es he
      unfold State.offerCompletion at hm
      split_ifs at hm with hb
      cases hm
      exact ⟨es, .inr ⟨_, he⟩, .inl ⟨hb, h, .inr he⟩⟩
    · cases hm
    · cases hm
    · cases hm

end Sys2Proof.Machine
end

