-- ==== Sys2Proof/Laws/ModArith.lean ====
section
/-! SUPPORT. ModArith and the mixers on naturals: one lemma per function, its value without wrapping
word arithmetic. -/

namespace Sys2Proof.Machine

/-- `add_fast` (40_modarith.md R142). -/
theorem toNat_addFast (x y : Word) :
    (addFast x y).toNat =
      if x.toNat + y.toNat < 2 ^ 64 then x.toNat + y.toNat
      else (x.toNat + y.toNat - 2 ^ 64 + 8) % 2 ^ 64 := by
  have := x.isLt
  have := y.isLt
  simp only [addFast, wordSize]
  split_ifs <;> simp only [BitVec.toNat_ofNat] <;> omega

/-- `mul_fast` (R150). -/
theorem toNat_mulFast (m x : Word) :
    (mulFast m x).toNat =
      if m.toNat * x.toNat % 2 ^ 64 + 8 * (m.toNat * x.toNat / 2 ^ 64) % 2 ^ 64 < 2 ^ 64 then
        m.toNat * x.toNat % 2 ^ 64 + 8 * (m.toNat * x.toNat / 2 ^ 64) % 2 ^ 64
      else
        m.toNat * x.toNat % 2 ^ 64 + 8 * (m.toNat * x.toNat / 2 ^ 64) % 2 ^ 64 - 2 ^ 64 + 8 := by
  generalize h : m.toNat * x.toNat = q
  simp only [mulFast, toNat_addFast, h, wordSize, BitVec.toNat_ofNat]
  split_ifs <;> omega

/-- `reduce_p` (R155). -/
theorem toNat_reduceP (x : Word) : (reduceP x).toNat = x.toNat % Config.p := by
  have := x.isLt
  simp only [reduceP, Config.p, BitVec.toNat_ofNat]
  omega

/-- The square of an accepted multiplier (44_prepare.md R252): `M = 8·p`, so the fast product has the
square's remainder modulo `p`. -/
theorem toNat_squareP {f : Word} (h : f.toNat < Config.p) :
    (squareP f).toNat = f.toNat ^ 2 % Config.p := by
  have hm : f.toNat * f.toNat < 2 ^ 122 := by
    simp only [Config.p] at h
    calc f.toNat * f.toNat ≤ (2 ^ 61 - 1) * (2 ^ 61 - 1) :=
          Nat.mul_le_mul (by omega) (by omega)
      _ < 2 ^ 122 := by norm_num
  rw [squareP, toNat_reduceP, toNat_mulFast, pow_two]
  generalize f.toNat * f.toNat = q at *
  obtain ⟨lo, hi, hlo, rfl⟩ : ∃ lo hi, lo < 2 ^ 64 ∧ q = lo + 2 ^ 64 * hi :=
    ⟨q % 2 ^ 64, q / 2 ^ 64, by omega, by omega⟩
  have h1 : (lo + 2 ^ 64 * hi) % 2 ^ 64 = lo := by omega
  have h2 : 8 * ((lo + 2 ^ 64 * hi) / 2 ^ 64) % 2 ^ 64 = 8 * hi := by omega
  have h3 : (lo + 2 ^ 64 * hi) % Config.p = (lo + 8 * hi) % Config.p := by
    rw [show lo + 2 ^ 64 * hi = lo + 8 * hi + Config.p * (8 * hi) by simp only [Config.p]; omega,
      Nat.add_mul_mod_self_left]
  rw [h1, h2, h3]
  clear h1 h2 h3
  simp only [Config.p]
  split_ifs <;> omega

theorem toNat_xorShift (v : Word) (n : Nat) :
    (xorShift v n).toNat = v.toNat ^^^ (v.toNat / 2 ^ n) := by
  rw [xorShift, BitVec.toNat_xor, BitVec.toNat_ushiftRight, Nat.shiftRight_eq_div_pow]

/-- The halves of a wide value put together again. -/
theorem hi64_append_lo64 (v : DWord) : hi64 v ++ lo64 v = v := by
  apply BitVec.eq_of_getLsbD_eq
  intro i hi
  simp only [hi64, lo64, BitVec.getLsbD_append, BitVec.getLsbD_extractLsb']
  by_cases h : i < 64
  · simp [h]
  · have h2 : i - 64 < 64 := by omega
    simp [h, h2, show 64 + (i - 64) = i by omega]

end Sys2Proof.Machine
end

