-- ==== Sys2Proof/Laws/Ph.lean ====
section
/-! SUPPORT. PH (41_ph.md): what block compression depends on. The bytes are given relative to the start
`B` of an input, so that two inputs at different places can be compared. -/

namespace Sys2Proof.Machine

/-- Data words with the same bytes are the same. -/
theorem memWord_congr {m m' : Memory} {a a' : Nat}
    (h : ∀ j < 8, m.read (a + j) = m'.read (a' + j)) : memWord m a = memWord m' a' := by
  rw [memWord, memWord, memRead_congr 8 h]

/-- A data word at offset `o` of an input. -/
theorem memWord_at {m m' : Memory} {B B' len : Nat}
    (hm : ∀ j < len, m.read (B + j) = m'.read (B' + j)) {o : Nat} (ho : o + 8 ≤ len) :
    memWord m (B + o) = memWord m' (B' + o) := by
  refine memWord_congr fun j hj => ?_
  have := hm (o + j) (by omega)
  rwa [← Nat.add_assoc, ← Nat.add_assoc] at this

/-- The pairs of a block depend on the seed, the block's bytes and the key words used. -/
theorem phPairs_congr {m m' : Memory} {k k' : KeyView} {B B' len : Nat}
    (hm : ∀ j < len, m.read (B + j) = m'.read (B' + j)) (seed : Word) {o n : Nat}
    (ho : o + 16 * n ≤ len) (hk : ∀ i < 2 * n, k i = k' i) :
    phPairs m k seed (B + o) n = phPairs m' k' seed (B' + o) n := by
  induction n with
  | zero => rfl
  | succ n ih =>
    have e0 := memWord_at hm (o := o + 8 * (2 * n)) (by omega)
    have e1 := memWord_at hm (o := o + 8 * (2 * n) + 8) (by omega)
    simp only [← Nat.add_assoc] at e0 e1
    rw [phPairs, phPairs, ih (by omega) fun i hi => hk i (by omega), phMix, phMix,
      hk _ (by omega), hk _ (by omega), e0, e1]

/-- A last block that ends at least 16 bytes into the input depends on the seed, the input's bytes and
the first `2·⌈n/16⌉` key words, not on what lies before the input. -/
theorem phLastBlock_congr {m m' : Memory} {k k' : KeyView} {B B' len : Nat}
    (hm : ∀ j < len, m.read (B + j) = m'.read (B' + j)) (seed : Word) {o n : Nat}
    (h1 : 1 ≤ n) (h16 : 16 ≤ o + n) (ho : o + n ≤ len)
    (hk : ∀ i < 2 * ((n + 15) / 16), k i = k' i) :
    phLastBlock m k seed (B + o) n = phLastBlock m' k' seed (B' + o) n := by
  simp only [phLastBlock]
  have e0 := memWord_at hm (o := o + n - 16) (by omega)
  have e1 := memWord_at hm (o := o + n - 8) (by omega)
  rw [show (n - (1 + (n - 1) % 16)) / 8 = 2 * ((n - 1) / 16) by omega,
    show 2 * ((n - 1) / 16) / 2 = (n - 1) / 16 by omega,
    phPairs_congr hm seed (by omega) fun i hi => hk i (by omega), phMix, phMix,
    hk _ (by omega), hk _ (by omega), show B + o + n - 16 = B + (o + n - 16) by omega,
    show B' + o + n - 16 = B' + (o + n - 16) by omega,
    show B + o + n - 8 = B + (o + n - 8) by omega,
    show B' + o + n - 8 = B' + (o + n - 8) by omega, e0, e1]

end Sys2Proof.Machine
end

