-- ==== Sys2Proof/Laws/Hash.lean ====
section
/-! SUPPORT. HASH and FPRINT (42_lengthclass.md, 45_dispatch.md): the three length classes of a digest,
packing, and what the Long loop leaves. -/

namespace Sys2Proof.Machine

/-- Key word `i` of the view of `W` (41_ph.md R185). -/
theorem view_eq_word (p : Pmem) (w : Bool) (i : Nat) :
    p.view w i = p.word (4 + 32 * rowOf w + i) := by
  have h : shiftOf w = 32 * rowOf w := by cases w <;> rfl
  rw [Pmem.view, Pmem.ph, h, Nat.add_assoc]

/-- A digest by the class of the input's length (42_lengthclass.md R210). -/
theorem hashInput_eq (m : Memory) (p : Pmem) (seed : Word) (w : Bool) (base n : Nat) :
    hashInput m p seed w base n =
      if n ≤ 8 then shortHash m (p.view w) seed base n
      else if n ≤ 16 then mediumHash m (p.view w) (p.mult0 w) (p.mult1 w) seed base n
      else longHash m (p.view w) (p.mult0 w) (p.mult1 w) seed base n := rfl

/-- Packing as arithmetic (42_lengthclass.md R211). -/
theorem toNat_packHalves (vLo : Nat) {vHi : Nat} (h : vHi < 2 ^ 32) :
    (packHalves vLo vHi).toNat = vHi * 2 ^ 32 + (vLo + vHi) % 2 ^ 32 := by
  rw [packHalves, BitVec.toNat_or, BitVec.toNat_shiftLeft, BitVec.toNat_ofNat, BitVec.toNat_ofNat,
    Nat.shiftLeft_eq, Nat.mod_eq_of_lt (show vHi < 2 ^ 64 by omega),
    Nat.mod_eq_of_lt (show vHi * 2 ^ 32 < 2 ^ 64 by omega),
    Nat.mod_eq_of_lt (show (vLo + vHi) % 2 ^ 32 < 2 ^ 64 by omega), Nat.mul_comm,
    ← Nat.two_pow_add_eq_or_of_lt (by omega)]

/-- The packed word depends on the input's bytes only. -/
theorem vecToU64_congr {m m' : Memory} {B B' n : Nat}
    (hm : ∀ j < n, m.read (B + j) = m'.read (B' + j)) (h8 : n ≤ 8) :
    vecToU64 m B n = vecToU64 m' B' n := by
  have w : ∀ o k, o + k ≤ n → memRead m (B + o) k = memRead m' (B' + o) k := by
    intro o k h
    refine memRead_congr k fun j hj => ?_
    have := hm (o + j) (by omega)
    rwa [← Nat.add_assoc, ← Nat.add_assoc] at this
  have w0 : ∀ k ≤ n, memRead m B k = memRead m' B' k := fun k h => w 0 k (by omega)
  have wl : ∀ k ≤ n, memRead m (B + n - k) k = memRead m' (B' + n - k) k := by
    intro k h
    rw [Nat.add_sub_assoc h, Nat.add_sub_assoc h]
    exact w (n - k) k (by omega)
  have h1 : n.testBit 0 = true → 1 ≤ n := by
    rcases n with _ | n
    · decide
    · omega
  have h2 : n.testBit 1 = true → 2 ≤ n := by
    rcases n with _ | _ | n
    · decide
    · decide
    · omega
  rw [vecToU64, vecToU64]
  by_cases h4 : 4 ≤ n
  · rw [if_pos h4, if_pos h4, w0 4 h4, wl 4 h4]
  · rw [if_neg h4, if_neg h4]
    congr 1
    · by_cases h : n.testBit 0 = true
      · rw [if_pos h, if_pos h, w0 1 (h1 h)]
      · rw [if_neg h, if_neg h]
    · by_cases h : n.testBit 1 = true
      · rw [if_pos h, if_pos h, wl 2 (h2 h)]
      · rw [if_neg h, if_neg h]

/-- The Long loop (42_lengthclass.md R224): all blocks but the last, which keeps 1 to 256 bytes. -/
theorem longLoop_eq (m : Memory) (k : KeyView) (m0 m1 seed : Word) {fuel n : Nat}
    (hf : n / 256 ≤ fuel) (hn : 0 < n) (acc : Word) (base : Nat) :
    longLoop m k m0 m1 seed fuel acc base n =
      ((List.range ((n - 1) / 256)).foldl
          (fun acc j => foldPh m0 m1 acc (phFullBlock m k seed (base + 256 * j))) acc,
        base + 256 * ((n - 1) / 256), n - 256 * ((n - 1) / 256)) := by
  have hb : Config.blockSize = 256 := rfl
  induction fuel generalizing acc base n with
  | zero =>
    rw [show (n - 1) / 256 = 0 by omega, longLoop]
    simp
  | succ fuel ih =>
    rw [longLoop, hb]
    by_cases hc : 256 < n
    · rw [if_pos hc, ih (by omega) (by omega), show (n - 1) / 256 = (n - 256 - 1) / 256 + 1 by omega]
      generalize (n - 256 - 1) / 256 = q
      rw [List.range_succ_eq_map, List.foldl_cons, List.foldl_map]
      have e : ∀ j, base + 256 + 256 * j = base + 256 * Nat.succ j := by intro j; omega
      simp only [e, Nat.mul_zero, Nat.add_zero]
      rw [show n - 256 - 256 * q = n - 256 * (q + 1) by omega]
    · rw [if_neg hc, show (n - 1) / 256 = 0 by omega]
      simp

end Sys2Proof.Machine
end

