-- ==== Sys2Proof/Laws/PerInstr.lean ====
section
/-! SUPPORT. The facts stated instruction by instruction: decoding the word of a command gives it back,
and that word is one of the opcode map's (30_encoding.md R101, R104). -/

namespace Sys2Proof.Laws

/-- The word of `i` decodes to `i` and selects a row of the opcode map. -/
def EncodeRoundTrip.Statement (i : Instr) : Prop := decode (encode i) = .ok i ∧ wordWf (encode i) = true

theorem EncodeRoundTrip.addf : EncodeRoundTrip.Statement .addf := ⟨rfl, rfl⟩
theorem EncodeRoundTrip.adds : EncodeRoundTrip.Statement .adds := ⟨rfl, rfl⟩
theorem EncodeRoundTrip.mulf : EncodeRoundTrip.Statement .mulf := ⟨rfl, rfl⟩
theorem EncodeRoundTrip.horner : EncodeRoundTrip.Statement .horner := ⟨rfl, rfl⟩
theorem EncodeRoundTrip.redp : EncodeRoundTrip.Statement .redp := ⟨rfl, rfl⟩
theorem EncodeRoundTrip.clmul : EncodeRoundTrip.Statement .clmul := ⟨rfl, rfl⟩
theorem EncodeRoundTrip.phfull (w : Bool) : EncodeRoundTrip.Statement (.phfull w) := by
  cases w <;> exact ⟨rfl, rfl⟩
theorem EncodeRoundTrip.phlast (w : Bool) : EncodeRoundTrip.Statement (.phlast w) := by
  cases w <;> exact ⟨rfl, rfl⟩
theorem EncodeRoundTrip.smix : EncodeRoundTrip.Statement .smix := ⟨rfl, rfl⟩
theorem EncodeRoundTrip.final : EncodeRoundTrip.Statement .final := ⟨rfl, rfl⟩
theorem EncodeRoundTrip.prepare : EncodeRoundTrip.Statement .prepare := ⟨rfl, rfl⟩
theorem EncodeRoundTrip.hash (w : Bool) : EncodeRoundTrip.Statement (.hash w) := by
  cases w <;> exact ⟨rfl, rfl⟩
theorem EncodeRoundTrip.fprint : EncodeRoundTrip.Statement .fprint := ⟨rfl, rfl⟩

end Sys2Proof.Laws
end

