-- ==== Sys2Proof/Laws/Prepare.lean ====
section
/-! SUPPORT. PREPARE (44_prepare.md): what each of its functions can answer, and the words it leaves. -/

namespace Sys2Proof.Machine

theorem acceptable_iff (f : Word) : acceptable f = true ↔ 0 < f.toNat ∧ f.toNat < Config.p := by
  simp only [acceptable, Bool.and_eq_true, bne_iff_ne, ne_eq, decide_eq_true_eq]
  constructor
  · rintro ⟨h, h2⟩
    exact ⟨Nat.pos_of_ne_zero fun h0 => h (BitVec.eq_of_toNat_eq h0), h2⟩
  · rintro ⟨h, h2⟩
    exact ⟨fun h0 => by simp [h0] at h, h2⟩

theorem toNat_mask61 (f : Word) : (mask61 f).toNat = f.toNat % 2 ^ 61 := by
  rw [mask61, BitVec.toNat_and, ← Nat.and_two_pow_sub_one_eq_mod]
  rfl

/-- The model's acceptance is the one Safety states in numbers. -/
theorem acceptable_mask61 (f : Word) : acceptable (mask61 f) = true ↔ IsMultiplier f := by
  rw [acceptable_iff, toNat_mask61]
  rfl

/-- A multiplier acceptable after masking spends no reservoir word (R252). -/
theorem pickMultiplier_of_acceptable {f : Word} (h : acceptable (mask61 f) = true)
    (res : List Word) : pickMultiplier f res = some (mask61 f, res) := by
  cases res <;> simp [pickMultiplier, h]

/-- Step 1 answers an acceptable multiplier: the masked one at no cost, or a masked reservoir word. -/
theorem pickMultiplier_some {f g : Word} {res res' : List Word}
    (h : pickMultiplier f res = some (g, res')) :
    acceptable g = true ∧
      ((g = mask61 f ∧ res' = res) ∨ ∃ r, (r :: res') <:+ res ∧ g = mask61 r) := by
  induction res generalizing f with
  | nil =>
    simp only [pickMultiplier] at h
    split_ifs at h with ha
    cases h
    exact ⟨ha, .inl ⟨rfl, rfl⟩⟩
  | cons r rs ih =>
    simp only [pickMultiplier] at h
    split_ifs at h with ha
    · cases h
      exact ⟨ha, .inl ⟨rfl, rfl⟩⟩
    · obtain ⟨h1, h2 | ⟨r', h2, h3⟩⟩ := ih h
      · obtain ⟨h2, rfl⟩ := h2
        exact ⟨h1, .inr ⟨r, List.suffix_refl _, h2⟩⟩
      · exact ⟨h1, .inr ⟨r', h2.trans (List.suffix_cons _ _), h3⟩⟩

/-- A key word that equals no earlier one stays and spends no reservoir word (R253). -/
theorem pickKey_of_notMem {earlier : List Word} {key : Word} (h : key ∉ earlier)
    (res : List Word) : pickKey earlier key res = some (key, res) := by
  cases res <;> simp [pickKey, h]

/-- One entry of step 2 ends as a word that equals no earlier one: itself, or a reservoir word. -/
theorem pickKey_some {earlier : List Word} {key key' : Word} {res res' : List Word}
    (h : pickKey earlier key res = some (key', res')) :
    key' ∉ earlier ∧
      ((key' = key ∧ res' = res) ∨ (key ∈ earlier ∧ (key' :: res') <:+ res)) := by
  induction res generalizing key with
  | nil =>
    simp only [pickKey] at h
    split_ifs at h with ha
    cases h
    exact ⟨ha, .inl ⟨rfl, rfl⟩⟩
  | cons r rs ih =>
    simp only [pickKey] at h
    split_ifs at h with ha
    · obtain ⟨h1, h2⟩ := ih h
      refine ⟨h1, .inr ⟨ha, ?_⟩⟩
      rcases h2 with ⟨rfl, rfl⟩ | ⟨_, h2⟩
      · exact List.suffix_refl _
      · exact h2.trans (List.suffix_cons _ _)
    · cases h
      exact ⟨ha, .inl ⟨rfl, rfl⟩⟩

/-- Distinct key words are left as they are. -/
theorem repairKeys_of_nodup {earlier keys : List Word} (h : (earlier ++ keys).Nodup)
    (res : List Word) : repairKeys earlier keys res = some keys := by
  induction keys generalizing earlier with
  | nil => rfl
  | cons key keys ih =>
    have h1 : key ∉ earlier := fun hm => (List.nodup_append.1 h).2.2 key hm key (by simp) rfl
    rw [repairKeys, pickKey_of_notMem h1]
    simp only
    rw [ih (by simpa using h)]

/-- Distinct key words at the front pass unchanged. -/
theorem repairKeys_append {earlier front : List Word} (keys res : List Word)
    (h : (earlier ++ front).Nodup) :
    repairKeys earlier (front ++ keys) res =
      (repairKeys (earlier ++ front) keys res).map (front ++ ·) := by
  induction front generalizing earlier with
  | nil => simp
  | cons key front ih =>
    have h1 : key ∉ earlier := fun hm => (List.nodup_append.1 h).2.2 key hm key (by simp) rfl
    rw [List.cons_append, repairKeys, pickKey_of_notMem h1]
    simp only
    rw [ih (by simpa using h), List.append_assoc, List.singleton_append]
    cases repairKeys (earlier ++ key :: front) keys res <;> rfl

/-- The first key word that equals an earlier one gives way to the next reservoir word, which is then looked
at in its place; with no word left step 2 fails (R253). -/
theorem repairKeys_repeated {front : List Word} {key : Word} (keys : List Word) (h : front.Nodup)
    (hk : key ∈ front) :
    repairKeys [] (front ++ key :: keys) [] = none ∧
    ∀ r res, repairKeys [] (front ++ key :: keys) (r :: res) =
      repairKeys [] (front ++ r :: keys) res := by
  have h' : ([] ++ front).Nodup := by simpa
  refine ⟨?_, fun r res => ?_⟩
  · rw [repairKeys_append _ _ h', repairKeys, pickKey]
    simp [hk]
  · rw [repairKeys_append _ _ h', repairKeys_append _ _ h', repairKeys, pickKey]
    simp only [List.nil_append, hk, if_true]
    rw [repairKeys]

/-- Repaired key words are distinct. -/
theorem repairKeys_nodup {earlier keys res ks : List Word}
    (h : repairKeys earlier keys res = some ks) (hn : earlier.Nodup) : (earlier ++ ks).Nodup := by
  induction keys generalizing earlier res ks with
  | nil => cases h; simpa
  | cons key keys ih =>
    rw [repairKeys] at h
    split at h
    · cases h
    · rename_i key' res' hp
      split at h
      · cases h
      · rename_i ks' hr
        cases h
        have hn' : (earlier ++ [key']).Nodup := by
          rw [List.nodup_append]
          refine ⟨hn, by simp, ?_⟩
          intro a ha b hb hab
          simp only [List.mem_singleton] at hb
          subst hb hab
          exact (pickKey_some hp).1 ha
        simpa using ih hr hn'

/-- Step 2 entry by entry: the length stays; an entry is itself or a reservoir word; it is itself if it
equals no earlier one as repaired; and no more entries change than the reservoir has words. -/
theorem repairKeys_some {earlier keys res ks : List Word}
    (h : repairKeys earlier keys res = some ks) :
    ks.length = keys.length ∧
    (∀ i : Nat, ks[i]? = keys[i]? ∨ ∃ r ∈ res, ks[i]? = some r) ∧
    (∀ (i : Nat) k, keys[i]? = some k → k ∉ earlier ++ ks.take i → ks[i]? = some k) ∧
    ((List.range keys.length).filter fun i : Nat => ks[i]? != keys[i]?).length ≤ res.length := by
  induction keys generalizing earlier res ks with
  | nil => cases h; simp
  | cons key keys ih =>
    rw [repairKeys] at h
    split at h
    · cases h
    · rename_i key' res' hp
      split at h
      · cases h
      · rename_i ks' hr
        cases h
        obtain ⟨i1, i2, i3, i4⟩ := ih hr
        obtain ⟨p1, p2⟩ := pickKey_some hp
        have hsub : ∀ r ∈ res', r ∈ res := by
          rcases p2 with ⟨_, rfl⟩ | ⟨_, p2⟩
          · exact fun _ h => h
          · exact fun r h => p2.subset (List.mem_cons_of_mem _ h)
        refine ⟨by simp [i1], ?_, ?_, ?_⟩
        · intro i
          cases i with
          | zero =>
            rcases p2 with ⟨rfl, _⟩ | ⟨_, p2⟩
            · exact .inl rfl
            · exact .inr ⟨key', p2.subset (by simp), rfl⟩
          | succ i =>
            rcases i2 i with h | ⟨r, h1, h2⟩
            · exact .inl (by simpa using h)
            · exact .inr ⟨r, hsub r h1, by simpa using h2⟩
        · intro i k hk hn
          cases i with
          | zero =>
            simp only [List.getElem?_cons_zero, Option.some.injEq] at hk
            subst hk
            rcases p2 with ⟨rfl, _⟩ | ⟨p2, _⟩
            · rfl
            · simp only [List.take_zero, List.append_nil] at hn
              exact absurd p2 hn
          | succ i =>
            simp only [List.getElem?_cons_succ] at hk ⊢
            exact i3 i k hk (by simpa using hn)
        · rw [List.length_cons, List.range_succ_eq_map, List.filter_cons, List.filter_map]
          have e : ((fun i : Nat => (key' :: ks')[i]? != (key :: keys)[i]?) ∘ Nat.succ) =
              fun i : Nat => ks'[i]? != keys[i]? := by
            funext i; simp
          rw [e]
          rcases p2 with ⟨rfl, rfl⟩ | ⟨_, p2⟩
          · simpa using i4
          · have := p2.length_le
            simp only [List.length_cons] at this
            split_ifs
            · simp only [List.length_cons, List.length_map]; omega
            · simp only [List.length_map]; omega

/-- What a PREPARE that succeeds has done: step 1 for both rows, then step 2, on one reservoir; then step
3's words are in PMEM (R255). -/
theorem prepare_some {p q : Pmem} (h : prepare p = some q) :
    ∃ f0 f1 res res' keys,
      pickMultiplier (p.poly 0 1) [p.poly 0 0, p.poly 1 0] = some (f0, res) ∧
      pickMultiplier (p.poly 1 1) res = some (f1, res') ∧
      repairKeys [] p.keys res' = some keys ∧
      q = p.setWords 0 (squareP f0 :: f0 :: squareP f1 :: f1 :: keys) := by
  rw [prepare] at h
  split at h
  · cases h
  · rename_i f0 res h0
    split at h
    · cases h
    · rename_i f1 res' h1
      split at h
      · cases h
      · rename_i keys h2
        cases h
        exact ⟨f0, f1, res, res', keys, h0, h1, h2, rfl⟩

theorem keys_eq (p : Pmem) : p.keys = (List.range 64).map p.ph := by
  have h : Config.nph = 64 := by decide
  rw [Pmem.keys, h]

theorem keys_length (p : Pmem) : p.keys.length = 64 := by
  rw [Pmem.keys, List.length_map, List.length_range]
  rfl

theorem keys_getElem? (p : Pmem) {i : Nat} (h : i < 64) : p.keys[i]? = some (p.ph i) := by
  have h' : i < Config.nph := h
  simp [Pmem.keys, h']

theorem keys_nodup (p : Pmem) :
    p.keys.Nodup ↔ ∀ i < 64, ∀ j < 64, p.ph i = p.ph j → i = j := by
  rw [Pmem.keys, List.nodup_map_iff_inj_on List.nodup_range]
  simp only [List.mem_range]
  rfl

/-- The words of PMEM as step 3 leaves them (R254, R255). -/
theorem word_prepared (p : Pmem) (a b c d : Word) {keys : List Word} (hl : keys.length = 64) :
    (p.setWords 0 (a :: b :: c :: d :: keys)).poly 0 0 = a ∧
    (p.setWords 0 (a :: b :: c :: d :: keys)).poly 0 1 = b ∧
    (p.setWords 0 (a :: b :: c :: d :: keys)).poly 1 0 = c ∧
    (p.setWords 0 (a :: b :: c :: d :: keys)).poly 1 1 = d ∧
    (∀ i < 64, keys[i]? = some ((p.setWords 0 (a :: b :: c :: d :: keys)).ph i)) := by
  have hw : Config.pmemWords = 68 := rfl
  simp only [Pmem.poly, Pmem.ph, word_setWords, List.length_cons, hl, hw]
  refine ⟨rfl, rfl, rfl, rfl, fun i hi => ?_⟩
  rw [if_pos (by omega), show 4 + i - 0 = i + 4 by omega]
  simp only [List.getD_cons_succ]
  rw [List.getD_eq_getElem?_getD, List.getElem?_eq_getElem (by omega)]
  rfl

end Sys2Proof.Machine
end

