-- ==== Sys2Proof/Machine/Script.lean ====
section
/-! DEFINITION. The host-script notation and the pseudo-commands (30_encoding.md R107, R108), as the
events they stand for. `polls` is how many reads of STATUS see BUSY before the completion step. -/

namespace Sys2Proof.Machine.Script

/-- `WR @haddr, v` (R107). -/
def wrAt (haddr : Nat) (v : Word) : List Event := [.write (wrap64 haddr) 8 v]

/-- `WR reg, v` (R107). -/
def wr (r : Reg) (v : Word) : List Event := wrAt (regOffset r) v

/-- `WRB @haddr, b` (R107). -/
def wrb (haddr : Nat) (b : Byte) : List Event := [.write (wrap64 haddr) 1 (b.zeroExtend 64)]

/-- `RD @haddr` (R107). -/
def rdAt (haddr : Nat) : List Event := [.read (wrap64 haddr) 8]

/-- `RD reg` (R107). -/
def rd (r : Reg) : List Event := rdAt (regOffset r)

/-- `RDB @haddr` (R107). -/
def rdb (haddr : Nat) : List Event := [.read (wrap64 haddr) 1]

/-- `CMD mnemonic` (R107). -/
def cmd (i : Instr) : List Event := wr .cmd (encode i)

/-- `WAIT` after a CMD write (R107): `polls` reads that see BUSY, the completion, one that sees DONE. -/
def wait (polls : Nat) : List Event :=
  (List.replicate polls (rd .status)).flatten ++ .complete :: rd .status

/-- `RUN mnemonic` (R108). -/
def run (i : Instr) (polls : Nat) : List Event := cmd i ++ wait polls

/-- `LOADP w0, w1, …` (R108), from PMEM word `w` on. -/
def loadp (w : Nat) : List Word → List Event
  | [] => []
  | v :: vs => wrAt (Config.pmemBase + 8 * w) v ++ loadp (w + 1) vs

/-- `LOADD a, bytes` (R108). -/
def loadd (a : Nat) : List Byte → List Event
  | [] => []
  | b :: bs => wrb (Config.dmemBase + a) b ++ loadd (a + 1) bs

/-- `WR SEED; WR DPTR; WR DLEN`, the operands of a hash call. -/
def setInput (seed a n : Word) : List Event := wr .seed seed ++ wr .dptr a ++ wr .dlen n

/-- `CALLHASH which, seed, a, n` (R108). -/
def callHash (w : Bool) (seed a n : Word) (polls : Nat) : List Event :=
  setInput seed a n ++ run (.hash w) polls ++ rd .res0

/-- `CALLFP seed, a, n` (R108). -/
def callFp (seed a n : Word) (polls : Nat) : List Event :=
  setInput seed a n ++ run .fprint polls ++ rd .res0 ++ rd .res1

end Sys2Proof.Machine.Script
end

