-- ==== Sys2Proof/Tests/Slice0.lean ====
section
/-! SUPPORT. Tests. Expected values of commands are copied from spec/95_test_vectors.md, which computes
them apart from this model; those of the host port follow 10_state.md and 20_memory.md by hand. Then,
for each statement with hypotheses, a witness that meets them. -/

namespace Sys2Proof.Tests

open Sys2Proof.Machine

set_option Elab.async false

/-! ## Well-formedness: each check refuses an ill-formed term -/

/-- R101(a): a reserved bit set. -/
theorem test_wordWf_refuses_reserved_bit : wordWf 0x8000000000000001 = false := by decide

/-- R101(b): opcode 0x06 is none of the thirteen. -/
theorem test_wordWf_refuses_unknown_opcode : wordWf 0x006 = false := by decide

/-- R101(c): `W` on ADDF, a format-N command. -/
theorem test_wordWf_refuses_which_on_format_n : wordWf 0x101 = false := by decide

theorem test_wordWf_accepts_hash_1 : wordWf 0x150 = true := by decide

/-- R70: only sizes 1 and 8 exist. -/
theorem test_event_refuses_size_4 : (Event.read 0x1000 4).wf = false := by decide

/-- Log 12: a size-1 write carries one byte. -/
theorem test_event_refuses_wide_byte : (Event.write 0x1000 1 0x100).wf = false := by decide

theorem test_event_accepts_byte : (Event.write 0x1000 1 0xFF).wf = true := by decide

/-- R9: `1 ≤ T ≤ 32`; `DMEM_BYTES` is a multiple of 8, at least 16 and below `2⁶³`. -/
theorem test_params_refuse_bad_choices :
    [paramsWf 0 65536, paramsWf 33 65536, paramsWf 32 8, paramsWf 32 65532, paramsWf 32 (2 ^ 63)] =
      [false, false, false, false, false] := by decide

theorem test_params_accept_umc : paramsWf Config.T Config.dmemBytes = true := by decide

/-- PMEM_WORDS, BLOCK_SIZE and `M = 8·p` (R8, R9). -/
theorem test_parameters : Config.pmemWords = 4 + Config.nph ∧ Config.blockSize = 256 ∧
    Config.M = 8 * Config.p ∧ 2 ^ 64 - Config.M = 8 := by decide

/-! ## Decoding: the words of R104 written out field by field -/

/-- A command word from its fields (R100): 55 reserved bits, `W`, the opcode. -/
def commandWord (reserved : BitVec 55) (w : BitVec 1) (op : BitVec 8) : Word := reserved ++ w ++ op

theorem test_decode_addf : decode (commandWord 0 0b0 0b00000001) = .ok .addf := by decide
theorem test_decode_adds : decode (commandWord 0 0b0 0b00000010) = .ok .adds := by decide
theorem test_decode_mulf : decode (commandWord 0 0b0 0b00000011) = .ok .mulf := by decide
theorem test_decode_horner : decode (commandWord 0 0b0 0b00000100) = .ok .horner := by decide
theorem test_decode_redp : decode (commandWord 0 0b0 0b00000101) = .ok .redp := by decide
theorem test_decode_clmul : decode (commandWord 0 0b0 0b00010000) = .ok .clmul := by decide
theorem test_decode_phfull_0 : decode (commandWord 0 0b0 0b00010001) = .ok (.phfull false) := by decide
theorem test_decode_phfull_1 : decode (commandWord 0 0b1 0b00010001) = .ok (.phfull true) := by decide
theorem test_decode_phlast_0 : decode (commandWord 0 0b0 0b00010010) = .ok (.phlast false) := by decide
theorem test_decode_phlast_1 : decode (commandWord 0 0b1 0b00010010) = .ok (.phlast true) := by decide
theorem test_decode_smix : decode (commandWord 0 0b0 0b00100000) = .ok .smix := by decide
theorem test_decode_final : decode (commandWord 0 0b0 0b00110000) = .ok .final := by decide
theorem test_decode_prepare : decode (commandWord 0 0b0 0b01000000) = .ok .prepare := by decide
theorem test_decode_hash_0 : decode (commandWord 0 0b0 0b01010000) = .ok (.hash false) := by decide
theorem test_decode_hash_1 : decode (commandWord 0 0b1 0b01010000) = .ok (.hash true) := by decide
theorem test_decode_fprint : decode (commandWord 0 0b0 0b01010001) = .ok .fprint := by decide

/-- The three reasons of R101, and the order in which they are tested. -/
theorem test_decode_refuses :
    decode (commandWord 1 0b1 0b00000000) = .error .reservedBits ∧
    decode (commandWord 0 0b1 0b00000000) = .error .unknownOpcode ∧
    decode (commandWord 0 0b1 0b01010001) = .error .whichOnFormatN := by decide

theorem test_decodeTableWord : decodeTableWord 64 0x112 = some (.phlast true) ∧
    decodeTableWord 64 0x052 = none := by decide

/-! ## States -/

/-- The key words of TP1 (95_test_vectors.md section 2). -/
def tp1Key (i : Nat) : Word := wrap64 ((i + 1) * 0x9E3779B97F4A7C15)

/-- PMEM from its four multiplier words and its key words. -/
def paramSet (w0 w1 w2 w3 : Word) (key : Nat → Word) : Pmem :=
  pmemOf fun w =>
    match w with
    | 0 => w0
    | 1 => w1
    | 2 => w2
    | 3 => w3
    | i + 4 => key i

/-- TP1 and TP1′ of section 2. -/
def tp1 : Pmem :=
  paramSet 0x1111111111111111 0x0123456789ABCDEF 0x2222222222222222 0x0FEDCBA987654321 tp1Key
@[inherit_doc tp1] def tp1Prepared : Pmem :=
  paramSet 0x1CB03D3F72925A87 0x0123456789ABCDEF 0x14CCC27195EB2D17 0x0FEDCBA987654321 tp1Key

/-- The first 272 bytes of MSG (section 2), at address 0x100. -/
def msg : Memory :=
  ⟨65536, 0, (List.range 272).map fun j => (0x100 + j, BitVec.ofNat 8 ((3 * j + 1) % 251))⟩

/-- TP1′ in PMEM with PVALID, MSG in DMEM, and SEED, DPTR as the tables have them. -/
def keyed (n : Word) : State :=
  { State.reset with
    pmem := tp1Prepared, pvalid := true, dmem := msg, seed := 0x0F0E0D0C0B0A0908, dptr := 0x100,
    dlen := n }

/-- A state with a word in PMEM. -/
def withParams (p : Pmem) : State := { State.reset with pmem := p }

/-- RES0, RES1 and STATUS after a command. -/
def after (i : Instr) (s : State) : Option (Word × Word × Word) :=
  match exec i s with
  | .next t => some (t.res0, t.res1, t.status)
  | .fault _ => none
  | .refused _ => none

/-- RES0, RES1, STATUS and the words `ws` of PMEM after a command. -/
def afterWith (i : Instr) (s : State) (ws : List Nat) : Option (Word × Word × Word × List Word) :=
  match exec i s with
  | .next t => some (t.res0, t.res1, t.status, ws.map t.pmem.word)
  | .fault _ => none
  | .refused _ => none

/-! ## The commands (95_test_vectors.md) -/

/-- Section 4. -/
theorem test_addf_outside_its_contract :
    after .addf { State.reset with a := 0xFFFFFFFFFFFFFFFF, b := 0xFFFFFFFFFFFFFFFF } =
      some (0x0000000000000006, 0, 0x2) := by decide +kernel

theorem test_addf_not_canonical :
    after .addf { State.reset with a := 0xFFFFFFFFFFFFFFF7, b := 0x0000000000000001 } =
      some (0xFFFFFFFFFFFFFFF8, 0, 0x2) := by decide +kernel

theorem test_adds_canonical :
    after .adds { State.reset with a := 0xFFFFFFFFFFFFFFF7, b := 0x0000000000000001 } =
      some (0x0000000000000000, 0, 0x2) := by decide +kernel

theorem test_adds_both_subtractions :
    after .adds { State.reset with a := 0xFFFFFFFFFFFFFFFF, b := 0xFFFFFFFFFFFFFFFF } =
      some (0x000000000000000E, 0, 0x2) := by decide +kernel

theorem test_mulf_in_contract :
    after .mulf { State.reset with a := 0x1234567890ABCDEF, b := 0xFEDCBA9876543210 } =
      some (0xB46A8954C1204700, 0, 0x2) := by decide +kernel

theorem test_mulf_outside_its_contract :
    after .mulf { State.reset with a := 0xFFFFFFFFFFFFFFFF, b := 0xFFFFFFFFFFFFFFFF } =
      some (0xFFFFFFFFFFFFFFF1, 0, 0x2) := by decide +kernel

theorem test_horner_small :
    after .horner { State.reset with acc := 0, m0 := 2, m1 := 3, a := 5, b := 7 } =
      some (0x1F, 0, 0x2) := by decide +kernel

theorem test_horner_outside_its_contract :
    after .horner { State.reset with acc := 0xFFFFFFFFFFFFFFFF, m0 := 1, a := 0xFFFFFFFFFFFFFFFF } =
      some (0x0000000000000006, 0, 0x2) := by decide +kernel

theorem test_redp_modulus :
    after .redp { State.reset with a := 0x1FFFFFFFFFFFFFFF } = some (0, 0, 0x2) := by decide +kernel

theorem test_redp_all_ones :
    after .redp { State.reset with a := 0xFFFFFFFFFFFFFFFF } = some (7, 0, 0x2) := by decide +kernel

/-- Section 5. -/
theorem test_clmul_halves :
    after .clmul { State.reset with a := 0x0123456789ABCDEF, b := 0xFEDCBA9876543210 } =
      some (0x40A0789828C810F0, 0x00E038D8688850B0, 0x2) := by decide +kernel

theorem test_clmul_squares :
    after .clmul { State.reset with a := 0xFFFFFFFFFFFFFFFF, b := 0xFFFFFFFFFFFFFFFF } =
      some (0x5555555555555555, 0x5555555555555555, 0x2) := by decide +kernel

theorem test_phfull_1 :
    after (.phfull true) (keyed 0) =
      some (0x912AA91CD5DD10AB, 0x4487263588786F16, 0x6) := by decide +kernel

/-- The lowest legal footprint: the tail read reaches down to address 0. -/
theorem test_phlast_reads_before_the_block :
    after (.phlast false) { keyed 1 with
        dptr := 15, dmem := ⟨65536, 0, (List.range 16).map fun a => (a, 0)⟩ } =
      some (0x25A42D8421AA0B2A, 0x1C9F739355C8F697, 0x6) := by decide +kernel

theorem test_phlast_17 :
    after (.phlast true) (keyed 17) =
      some (0x05A80F289810836C, 0x0A676F97642EA89E, 0x6) := by decide +kernel

/-- Section 6. -/
theorem test_smix :
    after .smix { State.reset with a := 0x0123456789ABCDEF, b := 0xFEDCBA9876543210 } =
      some (0x92891BACDD427F6C, 0, 0x2) := by decide +kernel

theorem test_smix_injects_the_seed :
    after .smix { State.reset with b := 0xFFFFFFFFFFFFFFFF } =
      some (0x6B2FB6443A91829C, 0, 0x2) := by decide +kernel

theorem test_final :
    after .final { State.reset with a := 0x0123456789ABCDEF } =
      some (0x4283DA3B4C8B248A, 0, 0x2) := by decide +kernel

/-- Section 7, row K: two repeated key words, both reservoir words. -/
theorem test_prepare_repairs_two_keys :
    afterWith .prepare (withParams ((tp1.setWord 9 (tp1.word 6)).setWord 44 (tp1.word 4)))
        [0, 1, 2, 3, 9, 44] =
      some (1, 0, 0x06, [0x1CB03D3F72925A87, 0x0123456789ABCDEF, 0x14CCC27195EB2D17,
        0x0FEDCBA987654321, 0x1111111111111111, 0x2222222222222222]) := by decide +kernel

/-- Section 7, row L: a third demand on the reservoir. -/
theorem test_prepare_fails_on_a_third_demand :
    after .prepare (withParams
        (((tp1.setWord 9 (tp1.word 6)).setWord 44 (tp1.word 4)).setWord 67 (tp1.word 5))) =
      some (0, 0, 0x52) := by decide +kernel

/-- Section 8: Short, Medium and Long; the bytes past the input are unspecified. -/
theorem test_hash_short_3 :
    after (.hash false) (keyed 3) = some (0x6D5F84E33D0FD22C, 0, 0x6) := by decide +kernel

theorem test_hash_long_257 :
    after (.hash true) (keyed 257) = some (0x496564471638A3C8, 0, 0x6) := by decide +kernel

theorem test_fprint_medium_12 :
    after .fprint (keyed 12) = some (0xA4ECDACCAC181DDD, 0x8EE12FFAAA4443E1, 0x6) := by decide +kernel

/-- 60_exceptions.md R302: PARAM_INVALID comes before LEN_RANGE and DATA_RANGE. -/
theorem test_error_priority :
    after (.phlast false) { State.reset with dptr := 0xFFFFFFFFFFFFFFFF } = some (0, 0, 0x22) := by
  decide +kernel

/-! ## The host port and the step -/

/-- STATUS after the step that follows the acceptance of a command word. -/
def statusAfterWord (s : State) (w : Nat) : Option Word :=
  match step (s.withFetchWord 64 w) with
  | .next t => some t.status
  | .fault _ => none
  | .refused _ => none

/-- ADDF from reset completes (R45); an illegal word completes with ERR = 1 (R105); HASH without a
ParamSet with ERR = 2 (R283). -/
theorem test_step_runs_the_word : [0x001, 0x101, 0x050].map (statusAfterWord State.reset) =
    [some 0x02, some 0x12, some 0x22] := by decide +kernel

/-- What the host has seen after `n` steps of a script from reset. -/
def seenAfter (n : Nat) (es : List Event) : Option (List HostResult) :=
  match Sys2Proof.core.run n { State.reset with events := es } with
  | .next t => some t.seen
  | .fault _ => none
  | .refused _ => none

/-- R44, R72, R45: from the acceptance of a command to its completion writes are refused and STATUS shows
BUSY; then it shows DONE, and RES0 the result. -/
theorem test_write_while_busy :
    seenAfter 7 (Script.wr .a 5 ++ Script.cmd .addf ++ Script.wr .a 7 ++ Script.wait 1 ++
        Script.rd .res0) =
      some [.write .ok, .write .ok, .write .err, .read .ok 1, .read .ok 2, .read .ok 5] := by
  decide +kernel

/-- R71, R73: a word of DMEM read back byte by byte, and accesses the map has nothing for. -/
theorem test_dmem_bytes :
    seenAfter 5 (Script.wrAt 0x10008 0x1122334455667788 ++ Script.rdb 0x10008 ++
        Script.rdb 0x1000F ++ Script.rdAt 0x10004 ++ Script.rdb 0x18) =
      some [.write .ok, .read .ok 0x88, .read .ok 0x11, .read .err 0, .read .err 0] := by
  decide +kernel

/-- R33, D34: a byte of a PMEM word replaced. -/
theorem test_pmem_byte :
    seenAfter 3 (Script.wrAt 0x1000 0x1122334455667788 ++ Script.wrb 0x1001 0xFF ++
        Script.rdAt 0x1000) =
      some [.write .ok, .write .ok, .read .ok 0x112233445566FF88] := by
  decide +kernel

/-- R9, R65, R82: a DMEM of 16 bytes. HASH of 16 bytes completes, of 17 reports DATA_RANGE; the host reads its
last word and nothing beyond it. -/
theorem test_dmem_of_sixteen_bytes :
    [16, 17].map (fun n => (after (.hash false)
        { keyed n with dptr := 0, dmem := ⟨16, 0, (List.range 16).map fun a => (a, 0)⟩ }).map (·.2.2)) =
      [some 0x6, some 0x46] ∧
    [0x10008, 0x10010].map (fun h => (State.hostRead
        { keyed 0 with dmem := ⟨16, 0, (List.range 16).map fun a => (a, 7)⟩ } h 8)) =
      [(.ok, 0x0707070707070707), (.err, 0)] := by
  decide +kernel

/-! ## Witnesses: states and operands that meet the hypotheses of each statement, at the boundary values of
each clause -/

/-- A state with a command word pending. -/
def pending (c : Word) (es : List Event) : State := { State.reset with cmd := c, busy := true, events := es }

theorem witness_DecodeNamesWhyAWordIsIllegal :
    (0x200 : Word).toNat / 2 ^ 9 ≠ 0 ∧
    ((0x1FF : Word).toNat / 2 ^ 9 = 0 ∧ (0x1FF : Word).toNat % 256 ∉
      [1, 2, 3, 4, 5, 0x10, 0x11, 0x12, 0x20, 0x30, 0x40, 0x50, 0x51]) ∧
    ((0x151 : Word).toNat / 2 ^ 9 = 0 ∧ (0x151 : Word).toNat % 256 ∈
      [1, 2, 3, 4, 5, 0x10, 0x20, 0x30, 0x40, 0x51] ∧ (0x151 : Word).toNat / 256 % 2 = 1) := by
  decide

theorem witness_StepRunsThePendingCommand :
    ((pending 0x150 []).busy = true ∧ decode (pending 0x150 []).cmd = .ok (.hash true) ∧
      (pending 0x150 []).events = []) ∧
    ((pending 0x001 [.complete]).busy = true ∧ decode (pending 0x001 [.complete]).cmd = .ok .addf ∧
      (pending 0x001 [.complete]).events = .complete :: []) := by
  decide +kernel

theorem witness_IllegalWordReportsError1AndNothingElse :
    ((pending 0x101 []).busy = true ∧ decode (pending 0x101 []).cmd = .error .whichOnFormatN ∧
      (pending 0x101 []).events = []) ∧
    ((pending 0x200 [.complete]).busy = true ∧
      decode (pending 0x200 [.complete]).cmd = .error .reservedBits ∧
      (pending 0x200 [.complete]).events = .complete :: []) := by
  decide +kernel

/-- A read and a write with no command pending, and the same with one. -/
theorem witness_HostOperationsActThroughTheStep :
    ({ State.reset with events := [.read 0x10 8] } : State).events = .read 0x10 8 :: [] ∧
    ({ State.reset with events := [.write 0x18 8 5] } : State).events = .write 0x18 8 5 :: [] ∧
    (pending 0x001 [.read 0x10 8]).events = .read 0x10 8 :: [] ∧
    ((pending 0x001 [.write 0x18 8 5]).busy = true ∧
      (pending 0x001 [.write 0x18 8 5]).events = .write 0x18 8 5 :: []) := by
  decide +kernel

theorem witness_PendingCommandCompletes :
    (pending 0x001 [.read 0x10 8, .complete]).busy = true ∧
      Event.reset ∉ (pending 0x001 [.read 0x10 8, .complete]).events := by
  decide +kernel

theorem witness_IdleMachineStays : State.reset.busy = false ∧ State.reset.events = [] := by
  decide +kernel

theorem witness_ResetDiscardsThePendingCommand :
    (pending 0x040 [.reset]).events = .reset :: [] := by
  decide +kernel

theorem witness_CmdWriteIsAccepted :
    State.reset.busy = false ∧
      ({ State.reset with events := [.write 0x08 8 0x051] } : State).events =
        .write 0x08 8 0x051 :: [] := by
  decide +kernel

theorem witness_OperandRegisterWriteReadsBack :
    State.reset.busy = false ∧
      (Reg.dlen, (0x50 : Word)) ∈ [(Reg.a, (0x18 : Word)), (.b, 0x20), (.acc, 0x28), (.m0, 0x30),
        (.m1, 0x38), (.seed, 0x40), (.dptr, 0x48), (.dlen, 0x50)] := by
  decide +kernel

/-- The first address past the registers, an unaligned word, a word across the end of PMEM's window. -/
theorem witness_HostReadAllowedExactly :
    ¬LegalAccess 65536 0x68 8 ∧ ¬LegalAccess 65536 0x1004 8 ∧ ¬LegalAccess 65536 0x1220 1 ∧
      ¬LegalAccess 65536 0x20000 1 := by
  unfold LegalAccess inPmem inDmem
  decide

theorem witness_HostWriteAcceptedExactly :
    (State.reset.hostWrite 0x10 8 0).1 = .err ∧ (State.reset.hostWrite 0x60 8 0).1 = .err := by
  decide +kernel

theorem witness_HostReadReturnsTheAddressedValue :
    State.reset.sizeOk ∧ 67 < 68 ∧ 7 < 8 ∧ 65535 < State.reset.dmem.size ∧
      8 * 8191 < State.reset.dmem.size := by
  unfold State.sizeOk
  decide +kernel

theorem witness_PmemWriteReplacesAndWithdrawsPvalid :
    (keyed 0).busy = false ∧ 67 < 68 ∧ 7 < 8 := by
  decide +kernel

theorem witness_DmemWriteStoresItsBytes :
    (keyed 0).sizeOk ∧ (keyed 0).busy = false ∧ 8 * 8191 < (keyed 0).dmem.size ∧
      65535 < (keyed 0).dmem.size := by
  unfold State.sizeOk
  decide +kernel

/-- The largest sum without overflow and the least with it. -/
theorem witness_AddfResult :
    (0xFFFFFFFFFFFFFFFE : Word).toNat + (1 : Word).toNat < 2 ^ 64 ∧
      2 ^ 64 ≤ (0xFFFFFFFFFFFFFFFF : Word).toNat + (1 : Word).toNat := by
  decide

/-- The largest sum in the contract, the least outside it, a canonical operand, the largest sum without
overflow. -/
theorem witness_AddFastIsCongruentInItsContract :
    (0xFFFFFFFFFFFFFFFF : Word).toNat + (0xFFFFFFFFFFFFFFF8 : Word).toNat < 2 ^ 65 - 8 ∧
      2 ^ 64 ≤ (0xFFFFFFFFFFFFFFFF : Word).toNat + (0xFFFFFFFFFFFFFFF8 : Word).toNat ∧
      2 ^ 65 - 8 ≤ (0xFFFFFFFFFFFFFFFF : Word).toNat + (0xFFFFFFFFFFFFFFF9 : Word).toNat ∧
      (0xFFFFFFFFFFFFFFF7 : Word).toNat < Config.M ∧
      (0xFFFFFFFFFFFFFFFE : Word).toNat + (1 : Word).toNat < 2 ^ 64 := by
  decide

/-- The least product outside the contract, one just inside, the largest small multiplier. -/
theorem witness_MulFastIsCongruentExactlyInItsContract :
    2 ^ 125 ≤ (0x4000000000000000 : Word).toNat * (0x8000000000000000 : Word).toNat ∧
      (0x4000000000000000 : Word).toNat * (0x7FFFFFFFFFFFFFFF : Word).toNat < 2 ^ 125 ∧
      (0x1FFFFFFFFFFFFFFF : Word).toNat < 2 ^ 61 := by
  decide

/-- The largest operands of the sufficient condition, which meet the contract too. -/
theorem witness_HornerUpdateIsExactInItsContract :
    (0xFFFFFFFFFFFFFFF7 : Word).toNat < Config.M ∧ (0x1FFFFFFFFFFFFFFF : Word).toNat < 2 ^ 61 ∧
      (0xFFFFFFFFFFFFFFF7 : Word).toNat + (0xFFFFFFFFFFFFFFFF : Word).toNat < 2 ^ 65 - 8 ∧
      (0x1FFFFFFFFFFFFFFF : Word).toNat *
        (addFast 0xFFFFFFFFFFFFFFF7 0xFFFFFFFFFFFFFFFF).toNat < 2 ^ 125 ∧
      (0x1FFFFFFFFFFFFFFF : Word).toNat * (0xFFFFFFFFFFFFFFFF : Word).toNat < 2 ^ 125 := by
  decide +kernel

theorem witness_PhfullResult :
    ({ keyed 0 with dptr := 65280 } : State).pvalid = true ∧
      ({ keyed 0 with dptr := 65280 } : State).dptr.toNat + 256 ≤ (keyed 0).dmem.size := by
  decide +kernel

theorem witness_PhfullErrors :
    State.reset.pvalid = false ∧ ({ keyed 0 with dptr := 65281 } : State).pvalid = true ∧
      (keyed 0).dmem.size < ({ keyed 0 with dptr := 65281 } : State).dptr.toNat + 256 := by
  decide +kernel

/-- The lowest footprint, one byte long, and the highest, a whole block. -/
theorem witness_PhlastResult :
    (∀ s ∈ [{ keyed 1 with dptr := 15 }, { keyed 256 with dptr := 65280 }],
      s.pvalid = true ∧ 1 ≤ s.dlen.toNat ∧ s.dlen.toNat ≤ 256 ∧
      16 ≤ s.dptr.toNat + s.dlen.toNat ∧ s.dptr.toNat + s.dlen.toNat ≤ s.dmem.size) := by
  decide +kernel

/-- Lengths 0 and 257; footprints that end at 15 and one past DMEM. -/
theorem witness_PhlastErrors :
    State.reset.pvalid = false ∧
    (∀ s ∈ [keyed 0, keyed 257], s.pvalid = true ∧ (s.dlen.toNat = 0 ∨ 256 < s.dlen.toNat)) ∧
    (∀ s ∈ [{ keyed 15 with dptr := 0 }, { keyed 256 with dptr := 65281 }],
      s.pvalid = true ∧ 1 ≤ s.dlen.toNat ∧ s.dlen.toNat ≤ 256 ∧
      (s.dptr.toNat + s.dlen.toNat < 16 ∨ s.dmem.size < s.dptr.toNat + s.dlen.toNat)) := by
  decide +kernel

theorem witness_PhlastOfAFullBlockIsPhfull : (keyed 256).dlen = 256 := by
  decide +kernel

/-- R261(d), R262(a): reservoir word 0 for row 1, with one word left for `ph[5] = ph[2]`; and TP1 itself. -/
theorem witness_PrepareSpendsTheReservoirInOrder :
    TakesMultipliers (tp1.poly 0 1) 0x1FFFFFFFFFFFFFFF (tp1.poly 0 0) (tp1.poly 1 0) (tp1.poly 0 1)
        (tp1.poly 0 0) [tp1.poly 1 0] ∧
    RepairsKeys (tp1.setWord 9 (tp1.word 6)).ph [tp1.poly 1 0]
      (Function.update (tp1.setWord 9 (tp1.word 6)).ph 5 (tp1.poly 1 0)) ∧
    TakesMultipliers (tp1.poly 0 1) (tp1.poly 1 1) (tp1.poly 0 0) (tp1.poly 1 0) (tp1.poly 0 1)
        (tp1.poly 1 1) [tp1.poly 0 0, tp1.poly 1 0] ∧
    RepairsKeys tp1.ph [tp1.poly 0 0, tp1.poly 1 0] tp1.ph := by
  refine ⟨?_, ⟨by decide +kernel, .inr (.inl ⟨5, tp1.poly 1 0, [], by decide, rfl, ⟨2, ?_⟩, rfl⟩)⟩,
    ?_, by decide +kernel, .inl rfl⟩
  · unfold TakesMultipliers IsMultiplier
    decide +kernel
  · decide +kernel
  · unfold TakesMultipliers IsMultiplier
    decide +kernel

/-- R262(d): reservoir word 0 repeats `ph[3]`, word 1 takes its place. -/
theorem witness_PrepareSpendsTheReservoirInOrder_twice :
    RepairsKeys (tp1.setWord 9 (tp1.word 6)).ph [tp1.ph 3, 0x2222222222222222]
      (Function.update (Function.update (tp1.setWord 9 (tp1.word 6)).ph 5 (tp1.ph 3)) 5
        0x2222222222222222) := by
  refine ⟨by decide +kernel,
    .inr (.inr ⟨5, 5, _, _, le_refl 5, by decide, rfl, ⟨2, ?_⟩, ⟨3, ?_⟩, rfl⟩)⟩
  · decide +kernel
  · decide +kernel

/-- R260: no word of an all-zero PMEM is a multiplier, so nothing can be taken. -/
theorem witness_PrepareSpendsTheReservoirInOrder_fails :
    ¬∃ g0 g1 rest, TakesMultipliers 0 0 0 0 g0 g1 rest := by
  rintro ⟨g0, g1, rest, h0, -, h⟩
  rcases h with h | h | h | h | h | h <;> simp_all [IsMultiplier]

theorem witness_PrepareKeepsAValidParamSet : ParamSetOk (keyed 0).pmem := by
  unfold ParamSetOk
  decide +kernel

/-- A PREPARE that passes and has replaced a key word; `ph[63]` differs from every earlier one. -/
theorem witness_PrepareSuccessMeetsItsProperties :
    ∃ t, exec .prepare (withParams (tp1.setWord 9 (tp1.word 6))) = .next t ∧ t.pvalid = true ∧
      t.pmem.ph 5 = 0x1111111111111111 ∧
      ∀ j < 63, t.pmem.ph j ≠ (withParams (tp1.setWord 9 (tp1.word 6))).pmem.ph 63 :=
  ⟨_, rfl, by decide +kernel, by decide +kernel, by decide +kernel⟩

theorem witness_PrepareFailsOnZeros :
    ∀ w < 68, (withParams (pmemOf fun _ => 0)).pmem.word w = 0 := by
  decide +kernel

/-- Lengths 0 and 8, the latter up to the last byte of DMEM. -/
theorem witness_HashOfAShortInput :
    ∀ s ∈ [keyed 0, { keyed 8 with dptr := 65528 }],
      s.pvalid = true ∧ s.dlen.toNat ≤ 8 ∧ s.dptr.toNat + s.dlen.toNat ≤ s.dmem.size := by
  decide +kernel

theorem witness_VecToU64ByCases :
    (0 = 0) ∧ (1 = 1) ∧ (2 = 2) ∧ (3 = 3) ∧ (4 ≤ 4 ∧ 4 ≤ 8) ∧ (4 ≤ 8 ∧ 8 ≤ 8) := by
  decide

theorem witness_HashOfAMediumInput :
    ∀ s ∈ [keyed 9, { keyed 16 with dptr := 65520 }],
      s.pvalid = true ∧ 9 ≤ s.dlen.toNat ∧ s.dlen.toNat ≤ 16 ∧
      s.dptr.toNat + s.dlen.toNat ≤ s.dmem.size := by
  decide +kernel

/-- Length 17, and all of DMEM. -/
theorem witness_HashOfALongInput :
    ∀ s ∈ [keyed 17, { keyed 65536 with dptr := 0 }],
      s.pvalid = true ∧ 16 < s.dlen.toNat ∧
      s.dptr.toNat + s.dlen.toNat ≤ s.dmem.size := by
  decide +kernel

/-- The last footprint ends at `2⁶⁵ − 2`: the sum is exact. -/
theorem witness_HashAndFprintErrors :
    (Instr.fprint = .hash false ∨ Instr.fprint = .hash true ∨ Instr.fprint = .fprint) ∧
    State.reset.pvalid = false ∧
    (∀ s ∈ [{ keyed 1 with dptr := 65536 }, { keyed (-1) with dptr := -1 }],
      s.pvalid = true ∧ s.dmem.size < s.dptr.toNat + s.dlen.toNat) := by
  decide +kernel

theorem witness_FprintIsTheTwoHashes :
    (keyed 65280).pvalid = true ∧
      (keyed 65280).dptr.toNat + (keyed 65280).dlen.toNat ≤ (keyed 65280).dmem.size := by
  decide +kernel

/-- MSG again, 7 bytes higher. -/
def msgMoved : Memory := ⟨65536, 1, msg.cells.map fun c => (c.1 + 7, c.2)⟩

/-- The same input 7 bytes higher, with the words of the other view changed. -/
def keyedMoved : State :=
  { keyed 9 with dptr := 0x107, dmem := msgMoved, pmem := tp1Prepared.setWord 3 0, a := 5 }

theorem witness_HashDependsOnlyOnItsInput :
    (keyed 9).pvalid = true ∧ keyedMoved.pvalid = true ∧
    (keyed 9).dptr.toNat + (keyed 9).dlen.toNat ≤ (keyed 9).dmem.size ∧
    keyedMoved.dptr.toNat + keyedMoved.dlen.toNat ≤ keyedMoved.dmem.size ∧
    (keyed 9).seed = keyedMoved.seed ∧ (keyed 9).dlen = keyedMoved.dlen ∧
    SameView false (keyed 9).pmem keyedMoved.pmem ∧
    (∀ j < (keyed 9).dlen.toNat, (keyed 9).dmem.read ((keyed 9).dptr.toNat + j) =
      keyedMoved.dmem.read (keyedMoved.dptr.toNat + j)) ∧
    (∃ t, exec (.hash false) (keyed 9) = .next t) ∧
    (∃ t, exec (.hash false) keyedMoved = .next t) := by
  refine ⟨rfl, rfl, by decide +kernel, by decide +kernel, rfl, rfl, ?_, by decide +kernel,
    ⟨_, rfl⟩, ⟨_, rfl⟩⟩
  unfold SameView
  decide +kernel

/-- Lengths 8, 9, 16, 17 and 257. -/
theorem witness_HashReadsOnlyTheWordsOfItsClass_lengths :
    ∀ s ∈ [keyed 8, keyed 9, keyed 16, keyed 17, keyed 257], s.pvalid = true ∧
      s.dptr.toNat + s.dlen.toNat ≤ s.dmem.size := by
  decide +kernel

/-- Beside each, a ParamSet that differs where its class does not read: Short (8), Medium (9 and 16), Long
(17, four key words, and 257, all 32). -/
theorem witness_HashReadsOnlyTheWordsOfItsClass :
    tp1Prepared.ph (shiftOf true + 8) = (tp1Prepared.setWord 2 0).ph (shiftOf true + 8) ∧
    (∀ j < 2, tp1Prepared.poly (rowOf true) j = (tp1Prepared.setWord 38 0).poly (rowOf true) j) ∧
    (∀ i < 2, tp1Prepared.ph (shiftOf true + i) = (tp1Prepared.setWord 38 0).ph (shiftOf true + i)) ∧
    (∀ i < 4, tp1Prepared.ph (shiftOf true + i) = (tp1Prepared.setWord 40 0).ph (shiftOf true + i)) ∧
    2 * ((17 + 15) / 16) = 4 ∧
    (∀ i < 32, tp1Prepared.ph (shiftOf true + i) =
      (tp1Prepared.setWord 4 0).ph (shiftOf true + i)) := by
  decide +kernel

/-- HASH answers a next state from each of those, whatever is in PMEM. -/
theorem witness_HashReadsOnlyTheWordsOfItsClass_completes :
    ∃ t, exec (.hash true) { keyed 257 with pmem := tp1Prepared.setWord 4 0 } = .next t :=
  ⟨_, rfl⟩

theorem witness_CommandsWriteOnlyWhatR46Lists :
    (∃ t, exec .addf State.reset = .next t) ∧ Instr.addf ≠ .horner ∧ Instr.addf ≠ .prepare :=
  ⟨⟨_, rfl⟩, by decide, by decide⟩

theorem witness_FailedCommandChangesOnlyStatus :
    Instr.fprint ≠ .prepare ∧ ∃ t, exec .fprint State.reset = .next t ∧ t.err ≠ .none :=
  ⟨by decide, _, rfl, by decide +kernel⟩

/-- PVALID rises in a PREPARE of TP1, and PMEM changes by it. -/
theorem witness_PvalidTransitions_rise :
    ∃ t, step { withParams tp1 with busy := true, cmd := 0x040 } = .next t ∧
      (withParams tp1).pvalid = false ∧ t.pvalid = true ∧
      ∃ w, t.pmem.word w ≠ (withParams tp1).pmem.word w :=
  ⟨_, rfl, rfl, by decide +kernel, 0, by decide +kernel⟩

/-- It falls in a PREPARE of a zeroed PMEM, by a write of the last byte of PMEM, and by reset. -/
theorem witness_PvalidTransitions_fall :
    (∃ t, step { withParams (pmemOf fun _ => 0) with busy := true, cmd := 0x040, pvalid := true } =
      .next t ∧ t.completedWith .prepareFail ∧ t.pvalid = false) ∧
    (∃ t, step { keyed 0 with events := [.write 0x121F 1 0] } = .next t ∧
      ((keyed 0).hostWrite 0x121F 1 0).1 = .ok ∧ t.pvalid = false) ∧
    inPmem (0x121F : Word).toNat ∧
    (∃ t, step { keyed 0 with events := [.reset] } = .next t ∧ t.pvalid = false) ∧
    (∃ t, step { keyed 0 with events := [.read 0x1000 8] } = .next t ∧ t.pvalid = true) := by
  refine ⟨⟨_, rfl, ⟨by decide +kernel, by decide +kernel, by decide +kernel⟩, by decide +kernel⟩,
    ⟨_, rfl, by decide +kernel, by decide +kernel⟩, ⟨by decide, by decide⟩, ⟨_, rfl, rfl⟩,
    ⟨_, rfl, rfl⟩⟩

/-- A byte of DMEM changed by a write of the last byte. -/
theorem witness_WhatChangesTheMemories :
    ∃ t, step { keyed 0 with
        dmem := ⟨65536, 0, [(65535, 1)]⟩, events := [.write 0x1FFFF 1 7] } = .next t ∧
      ∃ a, t.dmem.read a ≠ (⟨65536, 0, [(65535, 1)]⟩ : Memory).read a :=
  ⟨_, rfl, 65535, by decide +kernel⟩

theorem witness_EveryStepKeepsTheInvariant :
    State.reset.Inv ∧ ∃ t, step State.reset = .next t :=
  ⟨⟨rfl, by unfold State.sizeOk; decide, nofun, by decide +kernel, by decide +kernel,
    by decide +kernel⟩, _, rfl⟩

end Sys2Proof.Tests
end

/-! # When PVALID rises and when it falls (10_state.md R33)

`PvalidStep` says once what one step can do to PVALID; each clause of R33 is a short reading of it. -/

namespace Sys2Proof.Machine

/-! ## How a command completes -/

theorem raiseErr_completedWith (s : State) (e : ErrCode) : (s.raiseErr e).completedWith e :=
  ⟨rfl, rfl, rfl⟩

theorem finish_completedWith (s : State) (r0 r1 : Word) : (s.finish r0 r1).completedWith .none :=
  ⟨rfl, rfl, rfl⟩

theorem passPrepare_completedWith (s : State) (p : Pmem) : (s.passPrepare p).completedWith .none :=
  ⟨rfl, rfl, rfl⟩

theorem failPrepare_completedWith (s : State) : s.failPrepare.completedWith .prepareFail :=
  ⟨rfl, rfl, rfl⟩

theorem completedWith_unique {t : State} {e e' : ErrCode} (h : t.completedWith e)
    (h' : t.completedWith e') : e = e' := by
  obtain ⟨-, -, herr⟩ := h
  obtain ⟨-, -, herr'⟩ := h'
  exact herr.symm.trans herr'

theorem not_completedWith_of_busy {t : State} {e : ErrCode} (hb : t.busy = true) :
    ¬ t.completedWith e := by
  rintro ⟨hidle, -, -⟩
  simp [hb] at hidle

/-- PREPARE alone reports PREPARE_FAIL (60_exceptions.md R301). -/
theorem prepareFail_mem_mayRaise {i : Instr} : .prepareFail ∈ mayRaise i ↔ i = .prepare := by
  cases i <;> simp [mayRaise]

/-- PREPARE settles PVALID by its own success (44_prepare.md R256). -/
theorem exec_prepare_pvalid {s t : State} (h : exec .prepare s = .next t) :
    (t.completedWith .none ∧ t.pvalid = true) ∨
      (t.completedWith .prepareFail ∧ t.pvalid = false) := by
  change execPrepare s = .next t at h
  rcases execPrepare_cases s with ⟨p, -, hpass⟩ | ⟨-, hfail⟩
  · cases hpass.symm.trans h
    exact .inl ⟨passPrepare_completedWith s p, rfl⟩
  · cases hfail.symm.trans h
    exact .inr ⟨failPrepare_completedWith s, rfl⟩

theorem exec_pvalid_of_ne_prepare {i : Instr} {s t : State} (hi : i ≠ .prepare)
    (h : exec i s = .next t) :
    t.pvalid = s.pvalid ∧ ∃ e, e ≠ .prepareFail ∧ t.completedWith e := by
  rcases exec_cases i s with ⟨r0, r1, hres⟩ | ⟨e, he, herr⟩ | ⟨-, r, hres⟩ | ⟨hprep, -⟩
  · cases hres.symm.trans h
    exact ⟨rfl, .none, nofun, finish_completedWith s r0 r1⟩
  · cases herr.symm.trans h
    have hne : e ≠ .prepareFail := fun hpf => hi (prepareFail_mem_mayRaise.1 (hpf ▸ he))
    exact ⟨rfl, e, hne, raiseErr_completedWith s e⟩
  · cases hres.symm.trans h
    exact ⟨rfl, .none, nofun, finish_completedWith s r 0⟩
  · exact absurd hprep hi

/-- What a completion step does to PVALID: a PREPARE sets it to its success; any other command, and a word
that is no command, leaves it. -/
theorem completion_pvalid {s t : State} (h : completion s = .next t) :
    (decode s.cmd = .ok .prepare ∧
      ((t.completedWith .none ∧ t.pvalid = true) ∨
        (t.completedWith .prepareFail ∧ t.pvalid = false))) ∨
    (t.pvalid = s.pvalid ∧ ∃ e, e ≠ .prepareFail ∧ t.completedWith e) := by
  unfold completion State.pendingCommand at h
  cases hd : decode s.cmd with
  | error _ =>
    simp only [hd] at h
    cases h
    exact .inr ⟨rfl, .illegalCmd, nofun, raiseErr_completedWith s _⟩
  | ok i =>
    simp only [hd] at h
    by_cases hi : i = .prepare
    · subst hi
      exact .inl ⟨rfl, exec_prepare_pvalid h⟩
    · exact .inr (exec_pvalid_of_ne_prepare hi h)

/-! ## How a host write acts -/

/-- The places of the PMEM window. -/
def Place.isPmem : Place → Bool
  | .pmemWord _ => true
  | .pmemByte _ _ => true
  | _ => false

/-- The registers lie below the PMEM window (20_memory.md R80). -/
theorem regAt_lt {offset : Nat} {r : Reg} (h : regAt offset = some r) : offset < 0x68 := by
  have heq : regOffset r = offset := by simpa using List.find?_some h
  rw [← heq]
  cases r <;> decide

/-- The address map gives a place of PMEM exactly at the addresses of its window. -/
theorem inPmem_iff_isPmem {dmemBytes haddr size : Nat} {at_ : Place}
    (h : place dmemBytes haddr size = some at_) : inPmem haddr ↔ at_.isPmem = true := by
  have hat := place_at h
  cases at_ with
  | reg r =>
    obtain ⟨-, -, hr⟩ := hat
    have hlow := regAt_lt hr
    simp only [inPmem, Place.isPmem, iff_false, reduceCtorEq]
    omega
  | pmemWord _ | pmemByte _ _ | dmemWord _ | dmemByte _ =>
    simp only [PlaceAt] at hat
    simp only [inPmem, Place.isPmem, iff_true, iff_false, reduceCtorEq]
    omega

/-- A write to PMEM withdraws PVALID, a write to any other place leaves it. -/
theorem writePlace_pvalid {s t : State} {at_ : Place} {v : Word}
    (h : s.writePlace at_ v = some t) :
    t.pvalid = if at_.isPmem then false else s.pvalid := by
  cases at_ with
  | reg r => cases r <;> cases h <;> rfl
  | _ => cases h; rfl

/-- What a host write does to PVALID: accepted in the PMEM window it withdraws it, else it leaves it. -/
theorem hostWrite_pvalid (s : State) (haddr : Word) (size : Nat) (v : Word) :
    ((s.hostWrite haddr size v).1 = .ok ∧ inPmem haddr.toNat ∧
      (s.hostWrite haddr size v).2.pvalid = false) ∨
    (¬((s.hostWrite haddr size v).1 = .ok ∧ inPmem haddr.toNat) ∧
      (s.hostWrite haddr size v).2.pvalid = s.pvalid) := by
  rcases hostWrite_cases s haddr size v with hw | ⟨at_, t, -, hplace, hwrite, hw⟩ <;> rw [hw]
  · exact .inr ⟨by simp, rfl⟩
  · have hpv := writePlace_pvalid hwrite
    have hwindow := inPmem_iff_isPmem hplace
    by_cases hpm : at_.isPmem = true
    · exact .inl ⟨rfl, hwindow.2 hpm, by simpa [hpm] using hpv⟩
    · exact .inr ⟨fun hacc => hpm (hwindow.1 hacc.2), by simpa [hpm] using hpv⟩

/-- BUSY refuses every host write (20_memory.md R72). -/
theorem hostWrite_of_busy {s : State} (hb : s.busy = true) (haddr : Word) (size : Nat) (v : Word) :
    s.hostWrite haddr size v = (.err, s) := by
  rw [State.hostWrite, if_pos hb]

/-- A write event has the PVALID of the bare host write, whatever is still to come. -/
theorem doWrite_pvalid (s : State) (es : List Event) (haddr : Word) (size : Nat) (v : Word) :
    (State.doWrite { s with events := es } haddr size v).pvalid =
      (s.hostWrite haddr size v).2.pvalid := by
  have hside := hostWrite_hostSide s es s.seen haddr size v
  rw [State.doWrite, observe_pvalid, hside]

theorem doWrite_busy_of_busy {s : State} (hb : s.busy = true) (haddr : Word) (size : Nat) (v : Word) :
    (s.doWrite haddr size v).busy = true := by
  rw [State.doWrite, observe_busy, hostWrite_of_busy hb, hb]

/-! ## What one step can do to PVALID -/

/-- Neither a host operation nor a reset comes next: UMC moves by itself or waits (20_memory.md R85). -/
def State.UmcMoves (s : State) : Prop := s.events = [] ∨ ∃ es, s.events = .complete :: es

/-- The ways a step from `s` to `t` can treat PVALID (R33). -/
inductive PvalidStep (s t : State) : Prop
  /-- A PREPARE succeeds. -/
  | passes (turn : s.UmcMoves) (busy : s.busy = true) (cmd : decode s.cmd = .ok .prepare)
      (done : t.completedWith .none) (set : t.pvalid = true)
  /-- A PREPARE fails. -/
  | fails (turn : s.UmcMoves) (busy : s.busy = true) (cmd : decode s.cmd = .ok .prepare)
      (done : t.completedWith .prepareFail) (cleared : t.pvalid = false)
  /-- Any other command, or a word that is no command, completes. -/
  | completes (turn : s.UmcMoves) {e : ErrCode} (code : e ≠ .prepareFail)
      (done : t.completedWith e) (kept : t.pvalid = s.pvalid)
  /-- No command is pending. -/
  | waits (turn : s.UmcMoves) (idle : s.busy = false) (kept : t.pvalid = s.pvalid)
  /-- The host reads. -/
  | reads {haddr : Word} {size : Nat} {es : List Event} (event : s.events = .read haddr size :: es)
      (busy : t.busy = s.busy) (kept : t.pvalid = s.pvalid)
  /-- The host writes to PMEM. -/
  | writesPmem {haddr : Word} {size : Nat} {v : Word} {es : List Event}
      (event : s.events = .write haddr size v :: es) (ok : (s.hostWrite haddr size v).1 = .ok)
      (window : inPmem haddr.toNat) (cleared : t.pvalid = false)
  /-- The host's write is refused or goes elsewhere. -/
  | writesElse {haddr : Word} {size : Nat} {v : Word} {es : List Event}
      (event : s.events = .write haddr size v :: es)
      (other : ¬((s.hostWrite haddr size v).1 = .ok ∧ inPmem haddr.toNat))
      (busy : s.busy = true → t.busy = true) (kept : t.pvalid = s.pvalid)
  /-- The reset input. -/
  | resets {es : List Event} (event : s.events = .reset :: es) (cleared : t.pvalid = false)

theorem step_pvalid {s t : State} (h : step s = .next t) : PvalidStep s t := by
  obtain ⟨es, -, ⟨hb, hc, hev⟩ | ⟨hb, rfl, hev⟩ | ⟨haddr, size, hev, rfl⟩ |
    ⟨haddr, size, v, hev, rfl⟩ | ⟨hev, rfl⟩⟩ := step_cases h
  · have turn : s.UmcMoves := hev.imp_right fun he => ⟨es, he⟩
    rcases completion_pvalid hc with ⟨hcmd, ⟨hd, hpv⟩ | ⟨hd, hpv⟩⟩ | ⟨hpv, e, he, hd⟩
    · exact .passes turn hb hcmd hd hpv
    · exact .fails turn hb hcmd hd hpv
    · exact .completes turn he hd hpv
  · exact .waits (hev.imp_right fun he => ⟨es, he⟩) hb rfl
  · exact .reads hev rfl rfl
  · have hpv := doWrite_pvalid s es haddr size v
    have hbusy (hb : s.busy = true) : (State.doWrite { s with events := es } haddr size v).busy = true :=
      doWrite_busy_of_busy (s := { s with events := es }) hb haddr size v
    rcases hostWrite_pvalid s haddr size v with ⟨hok, hin, hclr⟩ | ⟨hother, hkept⟩
    · exact .writesPmem hev hok hin (hpv.trans hclr)
    · exact .writesElse hev hother hbusy (hpv.trans hkept)
  · exact .resets hev rfl

namespace PvalidStep

variable {s t : State}

theorem rise (h : PvalidStep s t) (hs : s.pvalid = false) (ht : t.pvalid = true) :
    s.busy = true ∧ decode s.cmd = .ok .prepare ∧ t.completedWith .none := by
  cases h with
  | passes _ busy cmd done _ => exact ⟨busy, cmd, done⟩
  | fails _ _ _ _ cleared | writesPmem _ _ _ cleared | resets _ cleared => simp [ht] at cleared
  | completes _ _ _ kept | waits _ _ kept | reads _ _ kept | writesElse _ _ _ kept =>
    simp [hs, ht] at kept

theorem fall (h : PvalidStep s t) (hs : s.pvalid = true) (ht : t.pvalid = false) :
    (∃ es, s.events = .reset :: es) ∨
    (s.busy = true ∧ decode s.cmd = .ok .prepare ∧ t.completedWith .prepareFail) ∨
    (∃ haddr size v es, s.events = .write haddr size v :: es ∧
      (s.hostWrite haddr size v).1 = .ok ∧ inPmem haddr.toNat) := by
  cases h with
  | resets event _ => exact .inl ⟨_, event⟩
  | fails _ busy cmd done _ => exact .inr (.inl ⟨busy, cmd, done⟩)
  | writesPmem event ok window _ => exact .inr (.inr ⟨_, _, _, _, event, ok, window⟩)
  | passes _ _ _ _ set => simp [ht] at set
  | completes _ _ _ kept | waits _ _ kept | reads _ _ kept | writesElse _ _ _ kept =>
    simp [hs, ht] at kept

theorem cleared_of_reset (h : PvalidStep s t) {es : List Event} (hev : s.events = .reset :: es) :
    t.pvalid = false := by
  cases h with
  | resets _ cleared => exact cleared
  | passes turn | fails turn | completes turn | waits turn => simp [State.UmcMoves, hev] at turn
  | reads event | writesPmem event | writesElse event => simp [hev] at event

theorem cleared_of_prepareFail (h : PvalidStep s t) (hb : s.busy = true)
    (hfail : t.completedWith .prepareFail) : t.pvalid = false := by
  cases h with
  | fails _ _ _ _ cleared | writesPmem _ _ _ cleared | resets _ cleared => exact cleared
  | passes _ _ _ done => exact nomatch completedWith_unique done hfail
  | completes _ code done => exact absurd (completedWith_unique done hfail) code
  | waits _ idle => simp [hb] at idle
  | reads _ busy => exact absurd hfail (not_completedWith_of_busy (busy.trans hb))
  | writesElse _ _ busy => exact absurd hfail (not_completedWith_of_busy (busy hb))

theorem cleared_of_pmem_write (h : PvalidStep s t) {haddr : Word} {size : Nat} {v : Word}
    {es : List Event} (hev : s.events = .write haddr size v :: es)
    (hok : (s.hostWrite haddr size v).1 = .ok) (hin : inPmem haddr.toNat) : t.pvalid = false := by
  cases h with
  | writesPmem _ _ _ cleared => exact cleared
  | writesElse event other =>
    obtain ⟨⟨rfl, rfl, rfl⟩, rfl⟩ := by simpa using hev.symm.trans event
    exact absurd ⟨hok, hin⟩ other
  | passes turn | fails turn | completes turn | waits turn => simp [State.UmcMoves, hev] at turn
  | reads event | resets event => simp [hev] at event

theorem kept_of_read (h : PvalidStep s t) {haddr : Word} {size : Nat} {es : List Event}
    (hev : s.events = .read haddr size :: es) : t.pvalid = s.pvalid := by
  cases h with
  | reads _ _ kept => exact kept
  | passes turn | fails turn | completes turn | waits turn => simp [State.UmcMoves, hev] at turn
  | writesPmem event | writesElse event | resets event => simp [hev] at event

end PvalidStep

/-- Settles O57: each clause is read off the ways a step can treat PVALID (`step_pvalid`). -/
theorem pvalidTransitions : Obligations.PvalidTransitions := by
  unfold Obligations.PvalidTransitions
  intro s t h
  have hstep := step_pvalid h
  exact ⟨hstep.rise, fun _ => hstep.cleared_of_reset, hstep.cleared_of_prepareFail,
    fun _ _ _ _ => hstep.cleared_of_pmem_write, fun _ _ _ => hstep.kept_of_read, hstep.fall⟩

end Sys2Proof.Machine

/-! # MemRead as a sum, and the host's operations as steps (20_memory.md R62, R72, R85) -/

namespace Sys2Proof.Machine

/-! ## MemRead -/

/-- MemRead weighs byte `j` with `2^(8j)` (R62). Its recursion takes the lowest byte off, so the sum is
split at its first term. -/
theorem memRead_eq_sum (m : Memory) (addr n : Nat) :
    memRead m addr n = ∑ j ∈ Finset.range n, (m.read (addr + j)).toNat * 2 ^ (8 * j) := by
  induction n generalizing addr with
  | zero => rfl
  | succ n ih =>
    have shift (j : Nat) : 2 ^ 8 * ((m.read (addr + 1 + j)).toNat * 2 ^ (8 * j)) =
        (m.read (addr + (j + 1))).toNat * 2 ^ (8 * (j + 1)) := by
      rw [show addr + 1 + j = addr + (j + 1) by omega, Nat.mul_succ, pow_add]
      ring
    rw [Finset.sum_range_succ', memRead, ih (addr + 1), Finset.mul_sum,
      Finset.sum_congr rfl fun j _ => shift j]
    simp [Nat.add_comm]

/-- Settles O21, by the sum along MemRead's recursion and the bound `memRead_lt`. -/
theorem memReadIsTheLittleEndianSum : Obligations.MemReadIsTheLittleEndianSum := by
  unfold Obligations.MemReadIsTheLittleEndianSum
  exact fun m addr n => ⟨memRead_eq_sum m addr n, memRead_lt m addr n⟩

/-! ## Host operations as steps -/

theorem readPlace_events (s : State) (es : List Event) (at_ : Place) :
    State.readPlace { s with events := es } at_ = s.readPlace at_ := by
  cases at_ with
  | reg r => cases r <;> rfl
  | _ => rfl

/-- What a host read answers does not depend on the operations still to come. -/
theorem hostRead_events (s : State) (es : List Event) (haddr : Word) (size : Nat) :
    State.hostRead { s with events := es } haddr size = s.hostRead haddr size := by
  unfold State.hostRead
  cases place s.dmem.size haddr.toNat size with
  | none => rfl
  | some at_ => exact congrArg (Prod.mk Resp.ok) (readPlace_events s es at_)

section steps
variable {s : State} {es : List Event} {haddr : Word} {size : Nat}

/-- A read step: the operation is used up and its answer observed; nothing else changes (R70, R85). -/
theorem step_of_read (hev : s.events = .read haddr size :: es) :
    step s = .next { s with
      events := es
      seen := s.seen ++ [.read (s.hostRead haddr size).1 (s.hostRead haddr size).2] } := by
  rw [step, State.nextMove, hev]
  simp only [State.doRead, State.observe, hostRead_events]

/-- A write step: the effect of the host write, its response observed (R70, R85). -/
theorem step_of_write {v : Word} (hev : s.events = .write haddr size v :: es) :
    step s = .next { (s.hostWrite haddr size v).2 with
      events := es
      seen := s.seen ++ [.write (s.hostWrite haddr size v).1] } := by
  have hside := hostWrite_hostSide s es s.seen haddr size v
  rw [step, State.nextMove, hev]
  simp only [State.doWrite, State.observe, hside]

/-- A write step while BUSY leaves UMC as it is (R72). -/
theorem step_of_write_of_busy {v : Word} (hb : s.busy = true)
    (hev : s.events = .write haddr size v :: es) :
    step s = .next { s with events := es, seen := s.seen ++ [.write .err] } := by
  rw [step_of_write hev, hostWrite_of_busy hb]

end steps

/-- Settles O9: the step rules of the two host operations, and the refusal of every write while BUSY. -/
theorem hostOperationsActThroughTheStep : Obligations.HostOperationsActThroughTheStep := by
  unfold Obligations.HostOperationsActThroughTheStep
  exact fun _ _ haddr size v => ⟨step_of_read, step_of_write,
    fun hb => hostWrite_of_busy hb haddr size v, step_of_write_of_busy⟩

end Sys2Proof.Machine

/-! # The adders, the multiplier, the reducer and the Horner update modulo M (40_modarith.md R140 to R162)

One fact carries the file: a carry out of 64 bits folds back as 8, because `2⁶⁴ ≡ 8 (mod M)` (R141). -/

namespace Sys2Proof.Machine

/-! ## The ring (R141) -/

/-- Carries fold back as 8 each. -/
theorem fold_carry_modEq (lo c : Nat) : lo + 2 ^ 64 * c ≡ lo + 8 * c [MOD Config.M] :=
  (Nat.ModEq.mul_right c (by decide : 2 ^ 64 ≡ 8 [MOD Config.M])).add_left lo

theorem p_dvd_M : Config.p ∣ Config.M := ⟨8, by decide⟩

/-- One conditional subtraction is the remainder of a number below twice the modulus. -/
theorem mod_eq_ite_sub {n m : Nat} (h : n < 2 * m) : n % m = if n < m then n else n - m := by
  split_ifs with hlt
  · exact Nat.mod_eq_of_lt hlt
  · rw [Nat.mod_eq_sub_mod (by omega), Nat.mod_eq_of_lt (by omega)]

/-! ## add_fast (R142, R144) -/

section addFast
variable {x y : Word}

theorem toNat_addFast_of_lt (h : x.toNat + y.toNat < 2 ^ 64) :
    (addFast x y).toNat = x.toNat + y.toNat := by
  rw [toNat_addFast, if_pos h]

/-- With a carry, in the contract: the `+ 8` does not wrap. -/
theorem toNat_addFast_of_carry (hcarry : 2 ^ 64 ≤ x.toNat + y.toNat)
    (hcontract : x.toNat + y.toNat < 2 ^ 65 - 8) :
    (addFast x y).toNat = x.toNat + y.toNat - 2 ^ 64 + 8 := by
  rw [toNat_addFast, if_neg (by omega), Nat.mod_eq_of_lt (by omega)]

/-- Outside the contract the `+ 8` wraps. -/
theorem toNat_addFast_of_wrap (h : 2 ^ 65 - 8 ≤ x.toNat + y.toNat) :
    (addFast x y).toNat = x.toNat + y.toNat + 8 - 2 ^ 65 := by
  have hx := x.isLt
  have hy := y.isLt
  rw [toNat_addFast, if_neg (by omega)]
  omega

/-- The contract of `add_fast` (R144(a)). -/
theorem addFast_modEq (h : x.toNat + y.toNat < 2 ^ 65 - 8) :
    (addFast x y).toNat ≡ x.toNat + y.toNat [MOD Config.M] := by
  rcases lt_or_ge (x.toNat + y.toNat) (2 ^ 64) with hlt | hcarry
  · rw [toNat_addFast_of_lt hlt]
  · rw [toNat_addFast_of_carry hcarry h]
    have hfold := fold_carry_modEq (x.toNat + y.toNat - 2 ^ 64) 1
    rw [show x.toNat + y.toNat - 2 ^ 64 + 2 ^ 64 * 1 = x.toNat + y.toNat by omega] at hfold
    exact hfold.symm

/-- Outside the contract the result is 8 below the residue (R144(c)). -/
theorem addFast_add_eight_of_wrap (h : 2 ^ 65 - 8 ≤ x.toNat + y.toNat) :
    (addFast x y).toNat + 8 = (x.toNat + y.toNat) % Config.M := by
  have hx := x.isLt
  have hy := y.isLt
  rw [toNat_addFast_of_wrap h]
  simp only [Config.M]
  omega

/-- A canonical operand suffices for the contract (R144(a)). -/
theorem addFast_contract_of_canonical (h : x.toNat < Config.M ∨ y.toNat < Config.M) :
    x.toNat + y.toNat < 2 ^ 65 - 8 := by
  have hx := x.isLt
  have hy := y.isLt
  simp only [Config.M] at h
  omega

theorem addFast_comm (x y : Word) : addFast x y = addFast y x := by
  simp only [addFast, Nat.add_comm]

end addFast

/-- Settles O24, from the three cases of the sum: no carry, a carry in the contract, and the `+ 8` that
wraps. -/
theorem addFastIsCongruentInItsContract : Obligations.AddFastIsCongruentInItsContract := by
  unfold Obligations.AddFastIsCongruentInItsContract
  intro x y
  have hx := x.isLt
  have hy := y.isLt
  refine ⟨fun h => ⟨addFast_modEq h, fun hcarry => ?_⟩, addFast_contract_of_canonical, fun h => ?_,
    addFast_comm x y, toNat_addFast_of_lt, by decide, by decide, by decide⟩
  · omega
  · have hwrap := toNat_addFast_of_wrap h
    exact ⟨by omega, by omega, hwrap, by omega, addFast_add_eight_of_wrap h⟩

/-! ## add_slow (R145, R146) -/

theorem reduceM_eq_mod {w : Nat} (h : w < 2 * Config.M) : reduceM w = w % Config.M := by
  rw [mod_eq_ite_sub h, reduceM]
  split_ifs <;> omega

/-- The unfixed sum with its fixup has the residue of the sum (R145). -/
theorem sum_add_fixup_modEq {s : Nat} (h : s < 2 * 2 ^ 64) :
    s ≡ s % 2 ^ 64 + (if 2 ^ 64 ≤ s then 8 else 0) [MOD Config.M] := by
  have hfixup : (if 2 ^ 64 ≤ s then 8 else 0) = 8 * (s / 2 ^ 64) := by split_ifs <;> omega
  calc s = s % 2 ^ 64 + 2 ^ 64 * (s / 2 ^ 64) := (Nat.mod_add_div s _).symm
    _ ≡ s % 2 ^ 64 + 8 * (s / 2 ^ 64) [MOD Config.M] := fold_carry_modEq _ _
    _ = s % 2 ^ 64 + (if 2 ^ 64 ≤ s then 8 else 0) := by rw [hfixup]

/-- `add_slow` is the canonical sum for all words (R146(a)): the fast path is canonical already, and on the
slow path each conditional subtraction is a remainder. -/
theorem toNat_addSlow (x y : Word) : (addSlow x y).toNat = (x.toNat + y.toNat) % Config.M := by
  have hx := x.isLt
  have hy := y.isLt
  have hsum : (x.toNat + y.toNat) % 2 ^ 64 < 2 ^ 64 := Nat.mod_lt _ (by decide)
  have hfixup : (if 2 ^ 64 ≤ x.toNat + y.toNat then 8 else 0) ≤ 8 := by split_ifs <;> omega
  rw [sum_add_fixup_modEq (s := x.toNat + y.toNat) (by omega), addSlow]
  simp only [wordSize]
  generalize (x.toNat + y.toNat) % 2 ^ 64 = sum at hsum
  generalize (if 2 ^ 64 ≤ x.toNat + y.toNat then 8 else 0) = fixup at hfixup
  have hM : Config.M = 2 ^ 64 - 8 := rfl
  split_ifs with hfast
  · rw [BitVec.toNat_ofNat, Nat.mod_eq_of_lt (by omega), Nat.mod_eq_of_lt (by omega)]
  · have hr : sum % Config.M < Config.M := Nat.mod_lt _ (by decide)
    have hcanonical : (sum + fixup) % Config.M < Config.M := Nat.mod_lt _ (by decide)
    rw [reduceM_eq_mod (w := sum) (by omega), reduceM_eq_mod (by omega), Nat.mod_add_mod,
      BitVec.toNat_ofNat, Nat.mod_eq_of_lt (by omega)]

theorem addSlow_comm (x y : Word) : addSlow x y = addSlow y x := by
  simp only [addSlow, Nat.add_comm]

theorem finish_keepsAllButResults (s : State) (r0 r1 : Word) :
    KeepsAllButResults s (s.finish r0 r1) := by
  simp [KeepsAllButResults, KeepsOperands, KeepsParams, KeepsDmem, KeepsHostSide, State.finish]

/-- Settles O25, by the value of `add_slow` and its symmetry. -/
theorem addsResultIsTheSumModM : Obligations.AddsResultIsTheSumModM := by
  unfold Obligations.AddsResultIsTheSumModM
  exact fun s => ⟨s.finish (addSlow s.a s.b) 0, rfl, toNat_addSlow s.a s.b, addSlow_comm s.a s.b, rfl,
    finish_completedWith s _ 0, rfl, finish_keepsAllButResults s _ 0⟩

/-! ## mul_fast (R150, R151) -/

/-- The bound of the product in the contract, read off its high word. -/
theorem lt_iff_hi_lt (q : Nat) : q < 2 ^ 125 ↔ q / 2 ^ 64 < 2 ^ 61 := by
  rw [Nat.div_lt_iff_lt_mul (by decide), ← pow_add]

/-- The inner sum of `mul_fast` is in the contract of `add_fast` (R151(b)). -/
theorem mulFast_inner_le (q : Nat) : q % 2 ^ 64 + 8 * (q / 2 ^ 64) % 2 ^ 64 ≤ 2 ^ 65 - 9 := by
  omega

section mulFast
variable {m x : Word}

/-- What `mul_fast` loses modulo M for all words (R151(c)): the bits of the high word from 61 on, which
`wrap64(8·hi)` shifts out. -/
theorem mulFast_add_lost_modEq (m x : Word) :
    (mulFast m x).toNat + 8 * (m.toNat * x.toNat / 2 ^ 64 / 2 ^ 61) ≡ m.toNat * x.toNat
      [MOD Config.M] := by
  rw [mulFast]
  generalize m.toNat * x.toNat = q
  have hinner : (wrap64 (q % wordSize)).toNat + (wrap64 (8 * (q / wordSize))).toNat =
      q % 2 ^ 64 + 8 * (q / 2 ^ 64) % 2 ^ 64 := by
    simp only [wordSize, BitVec.toNat_ofNat, Nat.mod_mod]
  have hle := mulFast_inner_le q
  have hadd := addFast_modEq (x := wrap64 (q % wordSize)) (y := wrap64 (8 * (q / wordSize)))
    (by omega)
  rw [hinner] at hadd
  calc (addFast (wrap64 (q % wordSize)) (wrap64 (8 * (q / wordSize)))).toNat +
          8 * (q / 2 ^ 64 / 2 ^ 61)
      ≡ q % 2 ^ 64 + 8 * (q / 2 ^ 64) % 2 ^ 64 + 8 * (q / 2 ^ 64 / 2 ^ 61) [MOD Config.M] :=
        hadd.add_right _
    _ ≡ q % 2 ^ 64 + 8 * (q / 2 ^ 64) % 2 ^ 64 + 2 ^ 64 * (q / 2 ^ 64 / 2 ^ 61) [MOD Config.M] :=
        (fold_carry_modEq _ _).symm
    _ = q % 2 ^ 64 + 8 * (q / 2 ^ 64) := by omega
    _ ≡ q % 2 ^ 64 + 2 ^ 64 * (q / 2 ^ 64) [MOD Config.M] := (fold_carry_modEq _ _).symm
    _ = q := Nat.mod_add_div q _

/-- The contract of `mul_fast` (R151(a)). -/
theorem mulFast_modEq (h : m.toNat * x.toNat < 2 ^ 125) :
    (mulFast m x).toNat ≡ m.toNat * x.toNat [MOD Config.M] := by
  have hlost := mulFast_add_lost_modEq m x
  rwa [Nat.div_eq_of_lt ((lt_iff_hi_lt _).1 h)] at hlost

/-- Outside its contract `mul_fast` loses a nonzero residue, at most `8·7` (R151(c)). -/
theorem mulFast_not_modEq (h : 2 ^ 125 ≤ m.toNat * x.toNat) :
    ¬ (mulFast m x).toNat ≡ m.toNat * x.toNat [MOD Config.M] := by
  intro hmod
  have hprod : m.toNat * x.toNat < 2 ^ 64 * 2 ^ 64 := Nat.mul_lt_mul'' m.isLt x.isLt
  have hlost : 8 * (m.toNat * x.toNat / 2 ^ 64 / 2 ^ 61) ≡ 0 [MOD Config.M] :=
    ((mulFast_add_lost_modEq m x).trans hmod.symm).add_left_cancel' (c := (mulFast m x).toNat)
  have hdvd := Nat.le_of_dvd (by omega) (Nat.modEq_zero_iff_dvd.1 hlost)
  simp only [Config.M] at hdvd
  omega

/-- A multiplier below `2⁶¹` suffices for the contract (R151(a)). -/
theorem mulFast_contract_of_lt (x : Word) (h : m.toNat < 2 ^ 61) : m.toNat * x.toNat < 2 ^ 125 :=
  calc m.toNat * x.toNat < 2 ^ 61 * 2 ^ 64 := Nat.mul_lt_mul'' h x.isLt
    _ = 2 ^ 125 := by decide

/-- A product of one word comes out unchanged. -/
theorem mulFast_eq_of_lt (h : m.toNat * x.toNat < 2 ^ 64) :
    (mulFast m x).toNat = m.toNat * x.toNat := by
  rw [toNat_mulFast, Nat.mod_eq_of_lt h, Nat.div_eq_of_lt h]
  exact if_pos h

@[simp] theorem zero_mulFast (x : Word) : mulFast 0 x = 0 :=
  BitVec.eq_of_toNat_eq ((mulFast_eq_of_lt (by simp)).trans (by simp))

@[simp] theorem mulFast_zero (m : Word) : mulFast m 0 = 0 :=
  BitVec.eq_of_toNat_eq ((mulFast_eq_of_lt (by simp)).trans (by simp))

@[simp] theorem one_mulFast (x : Word) : mulFast 1 x = x :=
  BitVec.eq_of_toNat_eq ((mulFast_eq_of_lt (by simpa using x.isLt)).trans (by simp))

theorem mulFast_comm (m x : Word) : mulFast m x = mulFast x m := by
  simp only [mulFast, Nat.mul_comm]

end mulFast

/-- Settles O27: in and out of the contract by what `mul_fast` loses, the residue
`8·⌊hi / 2⁶¹⌋` (`mulFast_add_lost_modEq`). -/
theorem mulFastIsCongruentExactlyInItsContract :
    Obligations.MulFastIsCongruentExactlyInItsContract := by
  unfold Obligations.MulFastIsCongruentExactlyInItsContract
  exact fun m x => ⟨lt_iff_hi_lt _, mulFast_contract_of_lt x, mulFast_modEq,
    fun h => ⟨mulFast_add_lost_modEq m x, mulFast_not_modEq h⟩, mulFast_inner_le _, zero_mulFast x,
    mulFast_zero m, one_mulFast x, mulFast_comm m x, by decide, by decide⟩

/-! ## reduce_p (R155, R156) -/

/-- `2⁶¹ ≡ 1 (mod p)`: the bits from 61 on fold onto the low ones. -/
theorem fold_modEq_p (n : Nat) : n ≡ n % 2 ^ 61 + n / 2 ^ 61 [MOD Config.p] := by
  have hone : 2 ^ 61 ≡ 1 [MOD Config.p] := by decide
  calc n = n % 2 ^ 61 + 2 ^ 61 * (n / 2 ^ 61) := (Nat.mod_add_div n _).symm
    _ ≡ n % 2 ^ 61 + 1 * (n / 2 ^ 61) [MOD Config.p] := (hone.mul_right _).add_left _
    _ = n % 2 ^ 61 + n / 2 ^ 61 := by rw [one_mul]

theorem fold_le (x : Word) : x.toNat % 2 ^ 61 + x.toNat / 2 ^ 61 ≤ Config.p + 7 := by
  have hx := x.isLt
  simp only [Config.p]
  omega

/-- The implementation by folding the top three bits (R156(a)). -/
theorem toNat_reduceP_eq_fold (x : Word) :
    (reduceP x).toNat =
      if x.toNat % 2 ^ 61 + x.toNat / 2 ^ 61 < Config.p then x.toNat % 2 ^ 61 + x.toNat / 2 ^ 61
      else x.toNat % 2 ^ 61 + x.toNat / 2 ^ 61 - Config.p := by
  have hseven : 7 < Config.p := by decide
  have hle := fold_le x
  rw [toNat_reduceP, fold_modEq_p, mod_eq_ite_sub (by omega)]

/-- `p` divides `M`, so `reduce_p` does not depend on the representative modulo M (R156(d)). -/
theorem reduceP_eq_of_modEq {v w : Word} (h : v.toNat ≡ w.toNat [MOD Config.M]) :
    reduceP v = reduceP w := by
  apply BitVec.eq_of_toNat_eq
  rw [toNat_reduceP, toNat_reduceP]
  exact h.of_dvd p_dvd_M

theorem toNat_wrap64_mod_M (n : Nat) : (wrap64 (n % Config.M)).toNat = n % Config.M :=
  Nat.mod_eq_of_lt ((Nat.mod_lt n (by decide)).trans (by decide))

/-- Settles O29, by folding modulo `p` and because `p` divides `M`. -/
theorem reducePByFolding : Obligations.ReducePByFolding := by
  unfold Obligations.ReducePByFolding
  refine ⟨fun x => ⟨toNat_reduceP_eq_fold x, fold_le x, ?_, reduceP_eq_of_modEq ?_⟩, by decide,
    by decide, by decide, by decide, by decide⟩
  · rw [toNat_reduceP]
    exact Nat.mod_lt _ (by decide)
  · rw [toNat_wrap64_mod_M]
    exact (Nat.mod_modEq _ _).symm

/-- Settles O28, by the value of `reduce_p`. -/
theorem redpResult : Obligations.RedpResult := by
  unfold Obligations.RedpResult
  exact fun s => ⟨s.finish (reduceP s.a) 0, rfl, toNat_reduceP s.a, rfl, finish_completedWith s _ 0, rfl,
    finish_keepsAllButResults s _ 0⟩

/-! ## The Horner update (R160, R161) -/

/-- The Horner update is the canonical sum of its two products, for all words. -/
theorem toNat_hornerDoubleUpdate (acc m0 m1 x y : Word) :
    (hornerDoubleUpdate acc m0 m1 x y).toNat =
      ((mulFast m0 (addFast acc x)).toNat + (mulFast m1 y).toNat) % Config.M := by
  rw [hornerDoubleUpdate, toNat_addSlow]

section horner
variable {acc m0 m1 x y : Word}

/-- In its contract the Horner update is exact (R161(b)): each of its functions is in its own contract. -/
theorem hornerDoubleUpdate_exact (hacc : acc.toNat + x.toNat < 2 ^ 65 - 8)
    (h0 : m0.toNat * (addFast acc x).toNat < 2 ^ 125) (h1 : m1.toNat * y.toNat < 2 ^ 125) :
    (hornerDoubleUpdate acc m0 m1 x y).toNat =
      (m0.toNat * (acc.toNat + x.toNat) + m1.toNat * y.toNat) % Config.M := by
  have hleft : (mulFast m0 (addFast acc x)).toNat ≡ m0.toNat * (acc.toNat + x.toNat) [MOD Config.M] :=
    (mulFast_modEq h0).trans ((addFast_modEq hacc).mul_left _)
  rw [toNat_hornerDoubleUpdate]
  exact hleft.add (mulFast_modEq h1)

end horner

/-- Settles O31, by the values and contracts of `add_fast`, `mul_fast` and `add_slow`. -/
theorem hornerUpdateIsExactInItsContract : Obligations.HornerUpdateIsExactInItsContract := by
  unfold Obligations.HornerUpdateIsExactInItsContract
  intro acc m0 m1 x y
  refine ⟨?_, hornerDoubleUpdate_exact, fun hacc h0 h1 => ⟨addFast_contract_of_canonical (.inl hacc),
    mulFast_contract_of_lt _ h0, mulFast_contract_of_lt y h1⟩, ?_⟩
  · rw [toNat_hornerDoubleUpdate]
    exact Nat.mod_lt _ (by decide)
  · rw [hornerDoubleUpdate, zero_mulFast, zero_mulFast]
    decide

end Sys2Proof.Machine

/-! # PH: the carry-less product and the block commands (41_ph.md R180 to R188)

XOR sums of bits carry the first part: bit `k` of a carry-less product is a sum over the bits of one factor,
and the sum of the spec is that one read backwards. The second part puts the loops of the block functions as
folds over their pairs; no product reaches bit 127, so no fold does. -/

namespace Sys2Proof.Machine

/-! ## XOR sums of bits -/

/-- The XOR of `f j` over `j < n`. -/
def xorBelow (n : Nat) (f : Nat → Bool) : Bool := ((List.range n).map f).foldl xor false

theorem xorBelow_succ (n : Nat) (f : Nat → Bool) :
    xorBelow (n + 1) f = xor (xorBelow n f) (f n) := by
  simp [xorBelow, List.range_succ]

/-- Terms that are all 0 from `n` on can be left out. -/
theorem xorBelow_eq_of_le {n m : Nat} {f : Nat → Bool} (h : n ≤ m) (hf : ∀ j, n ≤ j → f j = false) :
    xorBelow m f = xorBelow n f := by
  induction m, h using Nat.le_induction with
  | base => rfl
  | succ m hm ih => rw [xorBelow_succ, ih, hf m hm, Bool.xor_false]

/-- A sum over `j ≤ k`, read backwards. -/
theorem xorBelow_reflect (k : Nat) (f : Nat → Bool) :
    xorBelow (k + 1) (fun i => f (k - i)) = xorBelow (k + 1) f := by
  have hrev : (List.range (k + 1)).map (k - ·) = (List.range (k + 1)).reverse :=
    List.ext_getElem (by simp) fun i _ _ => by simp
  have hmap : (List.range (k + 1)).map (fun i => f (k - i)) = ((List.range (k + 1)).map f).reverse := by
    rw [← List.map_reverse, ← hrev, List.map_map]
    rfl
  rw [xorBelow, xorBelow, hmap]
  exact (List.reverse_perm _).foldl_eq (rcomm := ⟨Bool.xor_right_comm⟩) false

theorem xorBelow_congr {n : Nat} {f g : Nat → Bool} (h : ∀ j < n, f j = g j) :
    xorBelow n f = xorBelow n g := by
  rw [xorBelow, xorBelow, List.map_congr_left fun j hj => h j (List.mem_range.1 hj)]

/-! ## CLMUL64 (R180) -/

/-- `CLMUL64` by its definition, which is irreducible. -/
theorem clmul64_eq (a b : Word) : clmul64 a b = clmulBits (zext128 a) b 64 := by
  rw [clmul64]

/-- The recursion of `clmulBits` as the fold of R180 over the set bits of `b`. -/
theorem clmulBits_eq_foldl (a : DWord) (b : Word) (n : Nat) :
    clmulBits a b n =
      (((List.range n).filter fun j => b.getLsbD j).map fun j => a <<< j).foldl (· ^^^ ·) 0 := by
  induction n with
  | zero => rfl
  | succ n ih =>
    rw [clmulBits, ih, List.range_succ, List.filter_append, List.map_append, List.foldl_append]
    cases hb : b.getLsbD n <;> simp [hb]

theorem getLsbD_zext128_shiftLeft (a : Word) {j k : Nat} (hk : k < 128) :
    (zext128 a <<< j).getLsbD k = (decide (j ≤ k) && a.getLsbD (k - j)) := by
  by_cases h : j ≤ k
  · simp [zext128, hk, h]
  · simp [h, show k < j by omega]

/-- What bit `j` of `b` adds to bit `k` of the product. -/
def clmulTerm (a b : Word) (k j : Nat) : Bool :=
  b.getLsbD j && (decide (j ≤ k) && a.getLsbD (k - j))

theorem clmulTerm_of_bit_ge (a b : Word) (k : Nat) {j : Nat} (hj : 64 ≤ j) :
    clmulTerm a b k j = false := by
  simp [clmulTerm, BitVec.getLsbD_of_ge b j hj]

theorem clmulTerm_of_lt (a b : Word) {k j : Nat} (hj : k < j) : clmulTerm a b k j = false := by
  simp [clmulTerm, Nat.not_le.2 hj]

/-- The terms in the order of the spec. -/
theorem clmulTerm_sub (a b : Word) {k i : Nat} (hi : i ≤ k) :
    clmulTerm a b k (k - i) = (a.getLsbD i && b.getLsbD (k - i)) := by
  simp [clmulTerm, Nat.sub_sub_self hi, Bool.and_comm]

theorem getLsbD_clmulBits (a b : Word) (n : Nat) {k : Nat} (hk : k < 128) :
    (clmulBits (zext128 a) b n).getLsbD k = xorBelow n (clmulTerm a b k) := by
  induction n with
  | zero => simp [clmulBits, xorBelow]
  | succ n ih =>
    rw [clmulBits, xorBelow_succ, BitVec.getLsbD_xor, ih, clmulTerm,
      ← getLsbD_zext128_shiftLeft a hk]
    cases b.getLsbD n <;> simp

/-- Bit `k` of the product is the XOR of `aᵢ & bⱼ` over `i + j = k` (R180). -/
theorem getLsbD_clmul64 (a b : Word) {k : Nat} (hk : k < 128) :
    (clmul64 a b).getLsbD k = xorBelow (k + 1) fun i => a.getLsbD i && b.getLsbD (k - i) := by
  calc (clmul64 a b).getLsbD k
      = xorBelow 64 (clmulTerm a b k) := by rw [clmul64_eq, getLsbD_clmulBits a b 64 hk]
    _ = xorBelow 128 (clmulTerm a b k) :=
        (xorBelow_eq_of_le (by decide) fun _ => clmulTerm_of_bit_ge a b k).symm
    _ = xorBelow (k + 1) (clmulTerm a b k) := xorBelow_eq_of_le hk fun _ => clmulTerm_of_lt a b
    _ = xorBelow (k + 1) (fun i => clmulTerm a b k (k - i)) := (xorBelow_reflect k _).symm
    _ = xorBelow (k + 1) fun i => a.getLsbD i && b.getLsbD (k - i) :=
        xorBelow_congr fun _ hi => clmulTerm_sub a b (Nat.le_of_lt_succ hi)

/-- A product of two words has at most 127 bits: in `i + j = 127` one of the two bits lies outside its
word. -/
theorem getLsbD_clmul64_127 (a b : Word) : (clmul64 a b).getLsbD 127 = false := by
  have hterm : ∀ i < 128, (a.getLsbD i && b.getLsbD (127 - i)) = false := fun i _ => by
    rcases lt_or_ge i 64 with hi | hi
    · rw [BitVec.getLsbD_of_ge b _ (by omega), Bool.and_false]
    · rw [BitVec.getLsbD_of_ge a _ hi, Bool.false_and]
  rw [getLsbD_clmul64 a b (by decide), xorBelow_congr hterm]
  exact xorBelow_eq_of_le (Nat.zero_le 128) fun _ _ => rfl

/-! ## A command with a 128-bit result (10_state.md R26) -/

theorem finishWide_results (s : State) (r : DWord) :
    (s.finishWide r).res1 ++ (s.finishWide r).res0 = r :=
  hi64_append_lo64 r

theorem finishWide_completedWith (s : State) (r : DWord) : (s.finishWide r).completedWith .none :=
  finish_completedWith s _ _

theorem finishWide_keepsAllButResults (s : State) (r : DWord) :
    KeepsAllButResults s (s.finishWide r) :=
  finish_keepsAllButResults s _ _

theorem toNat_hi64_lt {r : DWord} (h : r.getLsbD 127 = false) : (hi64 r).toNat < 2 ^ 63 := by
  have hmsb : (hi64 r).msb = false := by
    simpa [hi64, BitVec.msb_eq_getLsbD_last] using h
  have hlt := BitVec.msb_eq_false_iff_two_mul_lt.1 hmsb
  omega

/-- Settles O32, by the bits of the product (`getLsbD_clmul64`) and its fold (`clmulBits_eq_foldl`). -/
theorem clmulResultBits : Obligations.ClmulResultBits := by
  unfold Obligations.ClmulResultBits
  intro s
  have hres := finishWide_results s (clmul64 s.a s.b)
  refine ⟨s.finishWide (clmul64 s.a s.b), rfl, fun k hk => ?_, ?_, finishWide_completedWith s _, rfl,
    finishWide_keepsAllButResults s _⟩
  · rw [hres]
    exact getLsbD_clmul64 s.a s.b hk
  · rw [hres, clmul64_eq]
    exact clmulBits_eq_foldl (zext128 s.a) s.b 64

/-! ## The block functions (R183, R186) -/

/-- The product of data pair `j` of the block at `base`, each word keyed by its key word (R183). -/
def pairProduct (m : Memory) (k : KeyView) (base j : Nat) : DWord :=
  clmul64 (memWord m (base + 16 * j) ^^^ k (2 * j)) (memWord m (base + 16 * j + 8) ^^^ k (2 * j + 1))

theorem phPairs_eq_foldl (m : Memory) (k : KeyView) (seed : Word) (base n : Nat) :
    phPairs m k seed base n =
      ((List.range n).map (pairProduct m k base)).foldl (· ^^^ ·) (zext128 seed) := by
  induction n with
  | zero => rfl
  | succ n ih =>
    rw [phPairs, phMix, ih, List.range_succ, List.map_append, List.foldl_append, ← Nat.mul_assoc]
    rfl

theorem phFullBlock_eq (m : Memory) (k : KeyView) (seed : Word) (base : Nat) :
    phFullBlock m k seed base = phPairs m k seed base 16 := by
  rw [phFullBlock]
  rfl

/-- The loop of `ph_last_block` ends with `i = 2·⌊(n−1)/16⌋` (R186). -/
theorem phLastBlock_eq (m : Memory) (k : KeyView) (seed : Word) (base n : Nat) :
    phLastBlock m k seed base n =
      phMix k (phPairs m k seed base ((n - 1) / 16)) (2 * ((n - 1) / 16))
        (memWord m (base + n - 16)) (memWord m (base + n - 8)) := by
  have hend : (n - (1 + (n - 1) % 16)) / 8 = 2 * ((n - 1) / 16) := by omega
  rw [phLastBlock, hend, Nat.mul_div_cancel_left _ (by decide)]

/-- Mixing in a product leaves bit 127. -/
theorem getLsbD_phMix_127 (k : KeyView) (acc : DWord) (i : Nat) (x y : Word) :
    (phMix k acc i x y).getLsbD 127 = acc.getLsbD 127 := by
  rw [phMix, BitVec.getLsbD_xor, getLsbD_clmul64_127, Bool.xor_false]

theorem getLsbD_phPairs_127 (m : Memory) (k : KeyView) (seed : Word) (base n : Nat) :
    (phPairs m k seed base n).getLsbD 127 = false := by
  induction n with
  | zero => simp [phPairs, zext128]
  | succ n ih => rw [phPairs, getLsbD_phMix_127, ih]

/-! ## PHFULL and PHLAST (R184, R188) -/

theorem exec_phfull_of_checks {s : State} (w : Bool) (hp : s.pvalid = true)
    (hrange : s.dptr.toNat + 256 ≤ s.dmem.size) :
    exec (.phfull w) s =
      .next (s.finishWide (phFullBlock s.dmem (s.pmem.view w) s.seed s.dptr.toNat)) := by
  change execPhfull w s = _
  rw [execPhfull_eq, if_neg (by simp [hp]), if_neg (by omega)]

theorem exec_phlast_of_checks {s : State} (w : Bool) (hp : s.pvalid = true)
    (hpos : 1 ≤ s.dlen.toNat) (hlen : s.dlen.toNat ≤ 256) (hlow : 16 ≤ s.dptr.toNat + s.dlen.toNat)
    (hrange : s.dptr.toNat + s.dlen.toNat ≤ s.dmem.size) :
    exec (.phlast w) s =
      .next (s.finishWide
        (phLastBlock s.dmem (s.pmem.view w) s.seed s.dptr.toNat s.dlen.toNat)) := by
  change execPhlast w s = _
  rw [execPhlast_eq, if_neg (by simp [hp]), if_neg (by omega), if_neg (by omega)]

/-- Settles O34: the block is the fold over its sixteen pairs (`phPairs_eq_foldl`), and bit 127 stays 0. -/
theorem phfullResult : Obligations.PhfullResult := by
  unfold Obligations.PhfullResult
  intro s w hp hrange
  refine ⟨_, exec_phfull_of_checks w hp hrange, ?_, ?_, finishWide_completedWith s _, rfl,
    finishWide_keepsAllButResults s _⟩
  · rw [finishWide_results, phFullBlock_eq]
    exact phPairs_eq_foldl s.dmem (s.pmem.view w) s.seed s.dptr.toNat 16
  · rw [finishWide_res1, phFullBlock_eq]
    exact toNat_hi64_lt (getLsbD_phPairs_127 _ _ _ _ _)

/-- Settles O36: the full pairs are a fold (`phPairs_eq_foldl`), the tail pair is mixed in after them
(`phLastBlock_eq`), and bit 127 stays 0. -/
theorem phlastResult : Obligations.PhlastResult := by
  unfold Obligations.PhlastResult
  intro s w hp hpos hlen hlow hrange
  refine ⟨_, exec_phlast_of_checks w hp hpos hlen hlow hrange, ?_, ?_, finishWide_completedWith s _, rfl,
    finishWide_keepsAllButResults s _⟩
  · rw [finishWide_results, phLastBlock_eq, phPairs_eq_foldl]
    rfl
  · rw [finishWide_res1, phLastBlock_eq]
    exact toNat_hi64_lt ((getLsbD_phMix_127 _ _ _ _ _).trans (getLsbD_phPairs_127 _ _ _ _ _))

end Sys2Proof.Machine

/-! # The Short mixer and HASH by length class (42_lengthclass.md R211 to R225, 45_dispatch.md R283)

HASH that passes its checks completes with the digest of its registers; the digest is then spelled out for
each of the three classes of R210. The Long loop itself is `longLoop_eq`. -/

namespace Sys2Proof.Machine

/-! ## The Short mixer (R213) -/

/-- A product of the mixers keeps its low 64 bits (R214); the spec writes the constant second. -/
theorem toNat_const_mul (c v : Word) : (c * v).toNat = v.toNat * c.toNat % 2 ^ 64 := by
  rw [BitVec.toNat_mul, Nat.mul_comm]

/-- The third step of the Short mixer, where the seed is injected. -/
theorem toNat_injectSeed (v seedp : Word) (n : Nat) :
    ((v ^^^ seedp) ^^^ (v >>> n)).toNat = (v.toNat ^^^ seedp.toNat) ^^^ (v.toNat / 2 ^ n) := by
  rw [BitVec.toNat_xor, BitVec.toNat_xor, BitVec.toNat_ushiftRight, Nat.shiftRight_eq_div_pow]

/-- The five steps of the Short mixer on naturals (R213). -/
theorem toNat_shortMix (v seedp : Word) :
    (shortMix v seedp).toNat =
      (let v1 := v.toNat ^^^ (v.toNat / 2 ^ 30)
       let v2 := v1 * 0xbf58476d1ce4e5b9 % 2 ^ 64
       let v3 := (v2 ^^^ seedp.toNat) ^^^ (v2 / 2 ^ 27)
       let v4 := v3 * 0x94d049bb133111eb % 2 ^ 64
       v4 ^^^ (v4 / 2 ^ 31)) := by
  simp only [shortMix, toNat_xorShift, toNat_const_mul, toNat_injectSeed]
  rfl

/-- Settles O39, by the Short mixer on naturals (`toNat_shortMix`). -/
theorem smixResult : Obligations.SmixResult := by
  unfold Obligations.SmixResult
  exact fun s => ⟨s.finish (shortMix s.a s.b) 0, rfl, toNat_shortMix s.a s.b, rfl,
    finish_completedWith s _ 0, rfl, finish_keepsAllButResults s _ 0⟩

/-! ## HASH past its checks (R283) -/

theorem exec_hash_of_checks {s : State} (w : Bool) (hp : s.pvalid = true)
    (hrange : s.dptr.toNat + s.dlen.toNat ≤ s.dmem.size) :
    exec (.hash w) s = .next (s.finish (s.digest w) 0) := by
  change execHash w s = _
  rw [execHash_eq, if_neg (by simp [hp]), if_neg (by omega)]

/-! ## The digest by length class (R210) -/

section digest
variable {s : State} (w : Bool)

/-- Short (R216): the seed is tweaked by the key word of the length. -/
theorem digest_of_short (hlen : s.dlen.toNat ≤ 8) :
    s.digest w = shortMix (vecToU64 s.dmem s.dptr.toNat s.dlen.toNat)
      (s.seed ^^^ s.pmem.word (4 + 32 * rowOf w + s.dlen.toNat)) := by
  rw [State.digest, hashInput_eq, if_pos hlen, shortHash, view_eq_word]

/-- Medium (R220): one Horner step, from 0, on the halves of the keyed product. -/
theorem digest_of_medium (hlow : 9 ≤ s.dlen.toNat) (hlen : s.dlen.toNat ≤ 16) :
    s.digest w =
      (let acc : DWord := zext128 (s.seed ^^^ s.dlen) ^^^
          clmul64 (memWord s.dmem s.dptr.toNat ^^^ s.pmem.word (4 + 32 * rowOf w))
            (memWord s.dmem (s.dptr.toNat + s.dlen.toNat - 8) ^^^ s.pmem.word (5 + 32 * rowOf w))
       finalizer (hornerDoubleUpdate 0 (s.pmem.word (2 * rowOf w))
          (s.pmem.word (2 * rowOf w + 1)) (lo64 acc) (hi64 acc))) := by
  have hn : wrap64 s.dlen.toNat = s.dlen := BitVec.eq_of_toNat_eq (by simp)
  have hk1 : s.pmem.view w (0 + 1) = s.pmem.word (5 + 32 * rowOf w) := by
    rw [view_eq_word, show 4 + 32 * rowOf w + (0 + 1) = 5 + 32 * rowOf w by omega]
  rw [State.digest, hashInput_eq, if_neg (by omega), if_pos hlen, mediumHash, phMix, hn, hk1,
    view_eq_word]
  rfl

/-- The mask of R224 takes the length modulo 256. -/
theorem wrap64_and_tailMask (n : Nat) : wrap64 n &&& Config.tailMask = wrap64 (n % 256) := by
  have hand : n % 2 ^ 64 &&& 2 ^ 8 - 1 = n % 2 ^ 64 % 2 ^ 8 := Nat.and_two_pow_sub_one_eq_mod _ 8
  apply BitVec.eq_of_toNat_eq
  rw [BitVec.toNat_and, BitVec.toNat_ofNat, BitVec.toNat_ofNat]
  change n % 2 ^ 64 &&& 2 ^ 8 - 1 = _
  omega

/-- Long (R224): the loop folds `⌈n/256⌉ − 1` full blocks, and only the last block tweaks the seed. -/
theorem digest_of_long (hlow : 16 < s.dlen.toNat) :
    s.digest w =
      (let q := (s.dlen.toNat - 1) / 256
       let n' := s.dlen.toNat - 256 * q
       let fold := foldPh (s.pmem.mult0 w) (s.pmem.mult1 w)
       let acc := (List.range q).foldl (fun acc j =>
         fold acc (phFullBlock s.dmem (s.pmem.view w) s.seed (s.dptr.toNat + 256 * j))) 0
       finalizer (fold acc (phLastBlock s.dmem (s.pmem.view w) (s.seed ^^^ wrap64 (n' % 256))
         (s.dptr.toNat + 256 * q) n'))) := by
  have hfuel : s.dlen.toNat / 256 ≤ s.dlen.toNat / Config.blockSize := Nat.le_refl _
  rw [State.digest, hashInput_eq, if_neg (by omega), if_neg (by omega), longHash,
    longLoop_eq _ _ _ _ _ hfuel (by omega)]
  simp only [wrap64_and_tailMask]

end digest

/-- Settles O47: past its checks HASH completes with the digest, here of the Short class. -/
theorem hashOfAShortInput : Obligations.HashOfAShortInput := by
  unfold Obligations.HashOfAShortInput
  intro s w hp hlen hrange
  exact ⟨_, exec_hash_of_checks w hp hrange, digest_of_short w hlen, rfl, finish_completedWith s _ 0, rfl,
    finish_keepsAllButResults s _ 0⟩

/-- Settles O49: past its checks HASH completes with the digest, here of the Medium class. -/
theorem hashOfAMediumInput : Obligations.HashOfAMediumInput := by
  unfold Obligations.HashOfAMediumInput
  intro s w hp hlow hlen hrange
  exact ⟨_, exec_hash_of_checks w hp hrange, digest_of_medium w hlow hlen, rfl,
    finish_completedWith s _ 0, rfl, finish_keepsAllButResults s _ 0⟩

/-- Settles O50: past its checks HASH completes with the digest, here of the Long class; the last block
keeps 1 to 256 bytes. -/
theorem hashOfALongInput : Obligations.HashOfALongInput := by
  unfold Obligations.HashOfALongInput
  intro s w hp hlow hrange
  have hpos : 1 ≤ s.dlen.toNat - 256 * ((s.dlen.toNat - 1) / 256) := by omega
  have hle : s.dlen.toNat - 256 * ((s.dlen.toNat - 1) / 256) ≤ 256 := by omega
  exact ⟨_, exec_hash_of_checks w hp hrange, ⟨hpos, hle, digest_of_long w hlow⟩, rfl,
    finish_completedWith s _ 0, rfl, finish_keepsAllButResults s _ 0⟩

end Sys2Proof.Machine

/-! # What a PREPARE that passes leaves in PMEM (44_prepare.md R258 to R260)

`PrepareRun` says by which choices `prepare` turns one PMEM into another; `prepare_eq_some_iff` ties it to
`prepare`. Each statement about PREPARE is then a reading of a run, or the construction of one. -/

namespace Sys2Proof.Machine

/-! ## PREPARE as a command (R256) -/

theorem exec_prepare_of_some {s : State} {q : Pmem} (h : prepare s.pmem = some q) :
    exec .prepare s = .next (s.passPrepare q) := by
  change execPrepare s = _
  rw [execPrepare, h]

theorem exec_prepare_of_none {s : State} (h : prepare s.pmem = none) :
    exec .prepare s = .next s.failPrepare := by
  change execPrepare s = _
  rw [execPrepare, h]

/-- A PREPARE after which PVALID is 1 has passed, whatever PVALID was before. -/
theorem prepare_of_exec_pvalid {s t : State} (h : exec .prepare s = .next t)
    (hv : t.pvalid = true) : prepare s.pmem = some t.pmem := by
  cases hp : prepare s.pmem with
  | some q =>
    cases (exec_prepare_of_some hp).symm.trans h
    rfl
  | none =>
    cases (exec_prepare_of_none hp).symm.trans h
    simp at hv

/-! ## The layout of PMEM (10_state.md R31) -/

/-- The two multiplier rows and the 64 key words are all of PMEM. -/
theorem pmem_ext_poly_ph {p q : Pmem} (hpoly : ∀ i < 2, ∀ j < 2, p.poly i j = q.poly i j)
    (hph : ∀ i < 64, p.ph i = q.ph i) : p = q := by
  refine pmem_ext fun w hw => ?_
  have hw68 : w < 68 := hw
  by_cases h4 : w < 4
  · have hrow := hpoly (w / 2) (by omega) (w % 2) (by omega)
    rwa [Pmem.poly, Pmem.poly, Nat.div_add_mod] at hrow
  · have hkey := hph (w - 4) (by omega)
    rwa [Pmem.ph, Pmem.ph, Nat.add_sub_cancel' (by omega)] at hkey

/-- Writing all the words of `q` in order gives `q`. -/
theorem setWords_all (p q : Pmem) :
    p.setWords 0 (q.poly 0 0 :: q.poly 0 1 :: q.poly 1 0 :: q.poly 1 1 :: q.keys) = q := by
  obtain ⟨h00, h01, h10, h11, hkeys⟩ :=
    word_prepared p (q.poly 0 0) (q.poly 0 1) (q.poly 1 0) (q.poly 1 1) (keys_length q)
  refine pmem_ext_poly_ph (fun i hi j hj => ?_) fun i hi => ?_
  · match i, hi, j, hj with
    | 0, _, 0, _ => exact h00
    | 0, _, 1, _ => exact h01
    | 1, _, 0, _ => exact h10
    | 1, _, 1, _ => exact h11
  · exact (Option.some.inj ((keys_getElem? q hi).symm.trans (hkeys i hi))).symm

/-- The key words before `ph[i]`. -/
theorem keys_take (p : Pmem) {i : Nat} (hi : i ≤ 64) : p.keys.take i = (List.range i).map p.ph := by
  rw [keys_eq, ← List.map_take, List.take_range, Nat.min_eq_left hi]

/-! ## What one row of step 1 spends (R252) -/

section pickMultiplier
variable {f g : Word} {res res' : List Word}

theorem pickMultiplier_source (h : pickMultiplier f res = some (g, res')) :
    g = mask61 f ∨ ∃ r ∈ res, g = mask61 r := by
  obtain ⟨-, ⟨hown, -⟩ | ⟨r, hsuffix, htaken⟩⟩ := pickMultiplier_some h
  · exact .inl hown
  · exact .inr ⟨r, hsuffix.subset List.mem_cons_self, htaken⟩

theorem pickMultiplier_rest_subset (h : pickMultiplier f res = some (g, res')) : res' ⊆ res := by
  obtain ⟨-, ⟨-, rfl⟩ | ⟨r, hsuffix, -⟩⟩ := pickMultiplier_some h
  · exact List.Subset.refl _
  · exact List.Subset.trans (List.subset_cons_self r res') hsuffix.subset

/-- A multiplier that is not the row's own has cost a reservoir word. -/
theorem pickMultiplier_cost (h : pickMultiplier f res = some (g, res')) :
    (g != mask61 f).toNat + res'.length ≤ res.length := by
  obtain ⟨-, ⟨hown, rfl⟩ | ⟨r, hsuffix, -⟩⟩ := pickMultiplier_some h
  · simp [hown]
  · have hone := Bool.toNat_le (g != mask61 f)
    have hlen := hsuffix.length_le
    rw [List.length_cons] at hlen
    omega

end pickMultiplier

/-- A word of `(0, 2⁶¹ − 1)` has bits 63:61 clear. -/
theorem mask61_of_lt {f : Word} (h : f.toNat < Config.p) : mask61 f = f :=
  BitVec.eq_of_toNat_eq <| by
    rw [toNat_mask61]
    exact Nat.mod_eq_of_lt (h.trans (by decide))

/-! ## The run of a PREPARE that passes -/

/-- The entropy reservoir: `poly[0][0]` and `poly[1][0]` as they stand on entry (R251). -/
def Pmem.reservoir (p : Pmem) : List Word := [p.poly 0 0, p.poly 1 0]

theorem mem_reservoir {p : Pmem} {w : Word} : w ∈ p.reservoir ↔ ∃ r < 2, w = p.poly r 0 := by
  constructor
  · intro h
    rcases List.mem_pair.1 h with rfl | rfl
    · exact ⟨0, by decide, rfl⟩
    · exact ⟨1, by decide, rfl⟩
  · rintro ⟨r, hr, rfl⟩
    match r, hr with
    | 0, _ => exact List.mem_pair.2 (.inl rfl)
    | 1, _ => exact List.mem_pair.2 (.inr rfl)

/-- The three steps of R255 from `p` to `q`: row 0 leaves `left0` of the reservoir, row 1 leaves `left1` of
that, and step 2 repairs the key words with `left1`. -/
structure PrepareRun (p q : Pmem) (left0 left1 : List Word) : Prop where
  row0 : pickMultiplier (p.poly 0 1) p.reservoir = some (q.poly 0 1, left0)
  row1 : pickMultiplier (p.poly 1 1) left0 = some (q.poly 1 1, left1)
  squares : ∀ i < 2, q.poly i 0 = squareP (q.poly i 1)
  keys : repairKeys [] p.keys left1 = some q.keys

theorem prepare_eq_some_iff {p q : Pmem} :
    prepare p = some q ↔ ∃ left0 left1, PrepareRun p q left0 left1 := by
  constructor
  · intro h
    obtain ⟨f0, f1, left0, left1, keys, hrow0, hrow1, hkeys, rfl⟩ := prepare_some h
    have hlen : keys.length = 64 := (repairKeys_some hkeys).1.trans (keys_length p)
    obtain ⟨h00, h01, h10, h11, hph⟩ := word_prepared p (squareP f0) f0 (squareP f1) f1 hlen
    generalize p.setWords 0 (squareP f0 :: f0 :: squareP f1 :: f1 :: keys) = q at *
    have hq : keys = q.keys := by
      refine List.ext_getElem (hlen.trans (keys_length q).symm) fun i hi hi' => ?_
      have hi64 : i < 64 := hlen ▸ hi
      refine Option.some.inj ?_
      rw [← List.getElem?_eq_getElem, ← List.getElem?_eq_getElem, hph i hi64, keys_getElem? q hi64]
    refine ⟨left0, left1, ?_, ?_, fun i hi => ?_, hq ▸ hkeys⟩
    · rw [h01]; exact hrow0
    · rw [h11]; exact hrow1
    · match i, hi with
      | 0, _ => rw [h00, h01]
      | 1, _ => rw [h10, h11]
  · rintro ⟨left0, left1, hrow0, hrow1, hsquares, hkeys⟩
    rw [Pmem.reservoir] at hrow0
    simp only [prepare, hrow0, hrow1, hkeys]
    rw [← hsquares 0 (by decide), ← hsquares 1 (by decide), setWords_all]

/-- A valid ParamSet runs to itself and spends nothing of the reservoir (R259). -/
theorem ParamSetOk.prepareRun {p : Pmem} (h : ParamSetOk p) :
    PrepareRun p p p.reservoir p.reservoir := by
  obtain ⟨hpoly, hdistinct⟩ := h
  have hpick : ∀ i < 2, pickMultiplier (p.poly i 1) p.reservoir = some (p.poly i 1, p.reservoir) := by
    intro i hi
    obtain ⟨hpos, hlt, -⟩ := hpoly i hi
    have hmask := mask61_of_lt hlt
    have hacc : acceptable (mask61 (p.poly i 1)) = true := by
      rw [hmask]
      exact (acceptable_iff _).2 ⟨hpos, hlt⟩
    rw [pickMultiplier_of_acceptable hacc, hmask]
  refine ⟨hpick 0 (by decide), hpick 1 (by decide), fun i hi => ?_, ?_⟩
  · obtain ⟨-, hlt, hsq⟩ := hpoly i hi
    exact BitVec.eq_of_toNat_eq (hsq.trans (toNat_squareP hlt).symm)
  · exact repairKeys_of_nodup ((keys_nodup p).2 hdistinct) _

/-! ## What a run leaves (R258) -/

namespace PrepareRun
variable {p q : Pmem} {left0 left1 : List Word}

theorem left0_subset (h : PrepareRun p q left0 left1) : left0 ⊆ p.reservoir :=
  pickMultiplier_rest_subset h.row0

theorem left1_subset (h : PrepareRun p q left0 left1) : left1 ⊆ p.reservoir :=
  List.Subset.trans (pickMultiplier_rest_subset h.row1) h.left0_subset

theorem multiplier_bounds (h : PrepareRun p q left0 left1) {i : Nat} (hi : i < 2) :
    0 < (q.poly i 1).toNat ∧ (q.poly i 1).toNat < Config.p := by
  rw [← acceptable_iff]
  match i, hi with
  | 0, _ => exact (pickMultiplier_some h.row0).1
  | 1, _ => exact (pickMultiplier_some h.row1).1

theorem paramSetOk (h : PrepareRun p q left0 left1) : ParamSetOk q := by
  refine ⟨fun i hi => ?_, (keys_nodup q).1 (repairKeys_nodup h.keys List.nodup_nil)⟩
  obtain ⟨hpos, hlt⟩ := h.multiplier_bounds hi
  exact ⟨hpos, hlt, by rw [h.squares i hi, toNat_squareP hlt]⟩

theorem multiplier_source (h : PrepareRun p q left0 left1) {i : Nat} (hi : i < 2) :
    q.poly i 1 = mask61 (p.poly i 1) ∨ ∃ r < 2, q.poly i 1 = mask61 (p.poly r 0) := by
  have hsource : q.poly i 1 = mask61 (p.poly i 1) ∨ ∃ w ∈ p.reservoir, q.poly i 1 = mask61 w := by
    match i, hi with
    | 0, _ => exact pickMultiplier_source h.row0
    | 1, _ =>
      refine (pickMultiplier_source h.row1).imp_right ?_
      rintro ⟨w, hw, htaken⟩
      exact ⟨w, h.left0_subset hw, htaken⟩
  refine hsource.imp_right ?_
  rintro ⟨w, hw, htaken⟩
  obtain ⟨r, hr, rfl⟩ := mem_reservoir.1 hw
  exact ⟨r, hr, htaken⟩

theorem key_source (h : PrepareRun p q left0 left1) {i : Nat} (hi : i < 64) :
    q.ph i = p.ph i ∨ ∃ r < 2, q.ph i = p.poly r 0 := by
  obtain ⟨-, hsource, -, -⟩ := repairKeys_some h.keys
  have hi_source := hsource i
  simp only [keys_getElem? _ hi, Option.some.injEq] at hi_source
  refine hi_source.imp_right ?_
  rintro ⟨w, hw, htaken⟩
  obtain ⟨r, hr, rfl⟩ := mem_reservoir.1 (h.left1_subset hw)
  exact ⟨r, hr, htaken⟩

/-- A key word that differs from every earlier one, as repaired, is kept (R253). -/
theorem key_kept (h : PrepareRun p q left0 left1) {i : Nat} (hi : i < 64)
    (hnew : ∀ j < i, q.ph j ≠ p.ph i) : q.ph i = p.ph i := by
  obtain ⟨-, -, hkept, -⟩ := repairKeys_some h.keys
  have hnotMem : p.ph i ∉ [] ++ q.keys.take i := by
    simpa [keys_take q hi.le] using hnew
  simpa [keys_getElem? q hi] using hkept i (p.ph i) (keys_getElem? p hi) hnotMem

/-- Each replaced key word has cost a word of what step 1 left. -/
theorem replacedKeys_le (h : PrepareRun p q left0 left1) :
    ((List.range 64).filter fun i => q.ph i != p.ph i).length ≤ left1.length := by
  obtain ⟨-, -, -, hcount⟩ := repairKeys_some h.keys
  rw [keys_length] at hcount
  refine le_of_eq_of_le (congrArg _ (List.filter_congr fun i hi => ?_)) hcount
  rw [keys_getElem? q (List.mem_range.1 hi), keys_getElem? p (List.mem_range.1 hi)]
  rfl

/-- The reservoir's two words pay for every replacement, in both steps. -/
theorem replaced_le_two (h : PrepareRun p q left0 left1) :
    ((List.range 2).filter fun i => q.poly i 1 != mask61 (p.poly i 1)).length +
      ((List.range 64).filter fun i => q.ph i != p.ph i).length ≤ 2 := by
  have hrows : ∀ c : Nat → Bool, ((List.range 2).filter c).length = (c 0).toNat + (c 1).toNat := by
    intro c
    cases h0 : c 0 <;> cases h1 : c 1 <;> simp [List.range_succ, h0, h1]
  have hrow0 := pickMultiplier_cost h.row0
  have hrow1 := pickMultiplier_cost h.row1
  have hkeys := h.replacedKeys_le
  have htwo : p.reservoir.length = 2 := rfl
  rw [hrows]
  omega

end PrepareRun

/-- With every word 0 no multiplier can be taken: the row's own and both reservoir words mask to 0 (R260). -/
theorem prepare_eq_none_of_zeros {p : Pmem} (h : ∀ w < 68, p.word w = 0) : prepare p = none := by
  have hpoly : ∀ i < 2, ∀ j < 2, p.poly i j = 0 := fun i hi j hj => h _ (by omega)
  refine Option.eq_none_iff_forall_ne_some.2 fun q hq => ?_
  obtain ⟨left0, left1, hrun⟩ := prepare_eq_some_iff.1 hq
  have hzero : q.poly 0 1 = mask61 0 := by
    rcases hrun.multiplier_source (i := 0) (by decide) with hown | ⟨r, hr, htaken⟩
    · rw [hown, hpoly 0 (by decide) 1 (by decide)]
    · rw [htaken, hpoly r hr 0 (by decide)]
  obtain ⟨hpos, -⟩ := hrun.multiplier_bounds (i := 0) (by decide)
  rw [hzero] at hpos
  exact absurd hpos (by decide)

/-! ## The statements -/

/-- Settles O45: every clause reads the run; `ph[0]` is kept because no word is earlier. -/
theorem prepareSuccessMeetsItsProperties : Obligations.PrepareSuccessMeetsItsProperties := by
  unfold Obligations.PrepareSuccessMeetsItsProperties
  intro s t hexec hvalid
  obtain ⟨left0, left1, hrun⟩ := prepare_eq_some_iff.1 (prepare_of_exec_pvalid hexec hvalid)
  refine ⟨hrun.paramSetOk, fun i hi => ⟨?_, ?_⟩, fun i hi => hrun.key_kept hi,
    fun i hi => hrun.multiplier_source hi, fun i hi => hrun.key_source hi, hrun.replaced_le_two,
    hrun.key_kept (by decide) nofun⟩
  · obtain ⟨-, hlt⟩ := hrun.multiplier_bounds hi
    exact hlt.trans (by decide)
  · obtain ⟨hpoly, -⟩ := hrun.paramSetOk
    obtain ⟨-, -, hsq⟩ := hpoly i hi
    rw [hsq]
    exact Nat.mod_lt _ (by decide)

/-- Settles O44: a valid ParamSet runs to itself. -/
theorem prepareKeepsAValidParamSet : Obligations.PrepareKeepsAValidParamSet := by
  unfold Obligations.PrepareKeepsAValidParamSet
  intro s hok
  exact exec_prepare_of_some (prepare_eq_some_iff.2 ⟨_, _, hok.prepareRun⟩)

/-- Settles O46: no multiplier can be taken from zeros, so PREPARE fails. -/
theorem prepareFailsOnZeros : Obligations.PrepareFailsOnZeros := by
  unfold Obligations.PrepareFailsOnZeros
  intro s hzeros
  exact ⟨_, exec_prepare_of_none (prepare_eq_none_of_zeros hzeros), failPrepare_completedWith s,
    rfl, rfl, rfl⟩

end Sys2Proof.Machine

/-! # What a digest depends on, and FPRINT as two digests (45_dispatch.md R282 to R287)

`SameInput` says that two states hold the same seed, length and input bytes. Each length class of R210 has
one lemma: over such states the digests agree as soon as the words of PMEM that the class reads agree. -/

namespace Sys2Proof.Machine

/-! ## HASH and FPRINT past their checks (R283, R284) -/

theorem res0_of_exec_hash {s t : State} {w : Bool} (hp : s.pvalid = true)
    (hrange : s.dptr.toNat + s.dlen.toNat ≤ s.dmem.size) (h : exec (.hash w) s = .next t) :
    t.res0 = s.digest w := by
  rw [exec_hash_of_checks w hp hrange] at h
  cases h
  rfl

theorem exec_fprint_of_checks {s : State} (hp : s.pvalid = true)
    (hrange : s.dptr.toNat + s.dlen.toNat ≤ s.dmem.size) :
    exec .fprint s = .next (s.finish (s.digest false) (s.digest true)) := by
  change execFprint s = _
  rw [execFprint_eq, if_neg (by simp [hp]), if_neg (by omega)]

/-- Settles O52: FPRINT passes its checks exactly where HASH does, and writes both digests. -/
theorem fprintIsTheTwoHashes : Obligations.FprintIsTheTwoHashes := by
  unfold Obligations.FprintIsTheTwoHashes
  intro s hp hrange
  exact ⟨_, _, _, exec_fprint_of_checks hp hrange, exec_hash_of_checks false hp hrange,
    exec_hash_of_checks true hp hrange, rfl, rfl, finish_completedWith s _ _, rfl,
    finish_keepsAllButResults s _ _⟩

/-! ## The digest by what its class reads (R286, R287) -/

/-- Both states hold the same seed, the same length and the same input bytes, wherever they lie. -/
structure SameInput (s s' : State) : Prop where
  seed : s.seed = s'.seed
  dlen : s.dlen = s'.dlen
  bytes : ∀ j < s.dlen.toNat, s.dmem.read (s.dptr.toNat + j) = s'.dmem.read (s'.dptr.toNat + j)

theorem sameInput_withPmem (s : State) (q : Pmem) : SameInput s { s with pmem := q } :=
  ⟨rfl, rfl, fun _ _ => rfl⟩

/-- A full block depends on the seed, its 256 bytes and all 32 key words of the view. -/
theorem phFullBlock_congr {m m' : Memory} {k k' : KeyView} {B B' len : Nat}
    (hm : ∀ j < len, m.read (B + j) = m'.read (B' + j)) (seed : Word) {o : Nat} (ho : o + 256 ≤ len)
    (hk : ∀ i < 32, k i = k' i) :
    phFullBlock m k seed (B + o) = phFullBlock m' k' seed (B' + o) := by
  rw [phFullBlock_eq, phFullBlock_eq]
  exact phPairs_congr hm seed ho hk

/-- How many key words of the view a Long input of `n` bytes reads (R287). -/
def longKeyCount (n : Nat) : Nat := if 256 < n then 32 else 2 * ((n + 15) / 16)

theorem longKeyCount_le (n : Nat) : longKeyCount n ≤ 32 := by
  unfold longKeyCount
  split_ifs <;> omega

theorem longKeyCount_of_fullBlock {n j : Nat} (hj : j < (n - 1) / 256) : longKeyCount n = 32 :=
  if_pos (by omega)

/-- The last block of a Long input needs no more key words than the whole. -/
theorem lastBlock_keys_le (n : Nat) :
    2 * ((n - 256 * ((n - 1) / 256) + 15) / 16) ≤ longKeyCount n := by
  unfold longKeyCount
  split_ifs <;> omega

namespace SameInput
variable {s s' : State} {w : Bool}

/-- Short: the key word of the length. -/
theorem digest_eq_of_short (h : SameInput s s') (hlen : s.dlen.toNat ≤ 8)
    (hkey : s.pmem.view w s.dlen.toNat = s'.pmem.view w s.dlen.toNat) : s.digest w = s'.digest w := by
  obtain ⟨hseed, hdlen, hbytes⟩ := h
  rw [digest_of_short w hlen, digest_of_short w (hdlen ▸ hlen), ← hseed, ← hdlen, ← view_eq_word,
    ← view_eq_word, hkey, vecToU64_congr hbytes hlen]

/-- Medium: the multipliers and the first two key words; the two data words may overlap. -/
theorem digest_eq_of_medium (h : SameInput s s') (hlow : 9 ≤ s.dlen.toNat) (hlen : s.dlen.toNat ≤ 16)
    (hmult : ∀ j < 2, s.pmem.poly (rowOf w) j = s'.pmem.poly (rowOf w) j)
    (hkeys : ∀ i < 2, s.pmem.view w i = s'.pmem.view w i) : s.digest w = s'.digest w := by
  obtain ⟨hseed, hdlen, hbytes⟩ := h
  have hmult0 : s.pmem.word (2 * rowOf w) = s'.pmem.word (2 * rowOf w) := hmult 0 (by decide)
  have hmult1 : s.pmem.word (2 * rowOf w + 1) = s'.pmem.word (2 * rowOf w + 1) := hmult 1 (by decide)
  have hkey0 : s.pmem.word (4 + 32 * rowOf w) = s'.pmem.word (4 + 32 * rowOf w) := by
    simpa only [view_eq_word, Nat.add_zero] using hkeys 0 (by decide)
  have hkey1 : s.pmem.word (5 + 32 * rowOf w) = s'.pmem.word (5 + 32 * rowOf w) := by
    simpa only [view_eq_word, Nat.add_right_comm] using hkeys 1 (by decide)
  have hfirst : memWord s.dmem s.dptr.toNat = memWord s'.dmem s'.dptr.toNat :=
    memWord_at hbytes (o := 0) (by omega)
  have hlast : memWord s.dmem (s.dptr.toNat + s.dlen.toNat - 8) =
      memWord s'.dmem (s'.dptr.toNat + s.dlen.toNat - 8) := by
    rw [Nat.add_sub_assoc (by omega), Nat.add_sub_assoc (by omega)]
    exact memWord_at hbytes (by omega)
  rw [digest_of_medium w hlow hlen, digest_of_medium w (hdlen ▸ hlow) (hdlen ▸ hlen), ← hseed,
    ← hdlen, hmult0, hmult1, hkey0, hkey1, hfirst, hlast]

/-- Long: the multipliers and `longKeyCount` key words, block by block. -/
theorem digest_eq_of_long (h : SameInput s s') (hlow : 16 < s.dlen.toNat)
    (hmult : ∀ j < 2, s.pmem.poly (rowOf w) j = s'.pmem.poly (rowOf w) j)
    (hkeys : ∀ i < longKeyCount s.dlen.toNat, s.pmem.view w i = s'.pmem.view w i) :
    s.digest w = s'.digest w := by
  obtain ⟨hseed, hdlen, hbytes⟩ := h
  have hmult0 : s.pmem.mult0 w = s'.pmem.mult0 w := hmult 0 (by decide)
  have hmult1 : s.pmem.mult1 w = s'.pmem.mult1 w := hmult 1 (by decide)
  have hfull : ∀ j < (s.dlen.toNat - 1) / 256,
      phFullBlock s.dmem (s.pmem.view w) s.seed (s.dptr.toNat + 256 * j) =
        phFullBlock s'.dmem (s'.pmem.view w) s.seed (s'.dptr.toNat + 256 * j) := fun j hj =>
    phFullBlock_congr hbytes s.seed (by omega) (longKeyCount_of_fullBlock hj ▸ hkeys)
  rw [digest_of_long w hlow, digest_of_long w (hdlen ▸ hlow), ← hseed, ← hdlen, ← hmult0, ← hmult1]
  dsimp only
  rw [List.foldl_ext _ _ _ fun acc j hj => by rw [hfull j (List.mem_range.1 hj)],
    phLastBlock_congr hbytes _ (by omega) (by omega) (by omega) fun i hi =>
      hkeys i (hi.trans_le (lastBlock_keys_le _))]

/-- The words of the view and row of `W` are enough for every class. -/
theorem digest_eq_of_sameView (h : SameInput s s') (hview : SameView w s.pmem s'.pmem) :
    s.digest w = s'.digest w := by
  obtain ⟨hmult, hkeys⟩ := hview
  have hkeys : ∀ i < 32, s.pmem.view w i = s'.pmem.view w i := hkeys
  rcases Nat.lt_or_ge 16 s.dlen.toNat with hlong | hlen
  · exact h.digest_eq_of_long hlong hmult fun i hi => hkeys i (hi.trans_le (longKeyCount_le _))
  rcases Nat.lt_or_ge 8 s.dlen.toNat with hmedium | hshort
  · exact h.digest_eq_of_medium hmedium hlen hmult fun i hi => hkeys i (by omega)
  · exact h.digest_eq_of_short hshort (hkeys _ (by omega))

end SameInput

/-- Settles O53: HASH writes the digest, and the view and the input fix it in each class. -/
theorem hashDependsOnlyOnItsInput : Obligations.HashDependsOnlyOnItsInput := by
  unfold Obligations.HashDependsOnlyOnItsInput
  intro s s' t t' w hp hp' hrange hrange' hseed hdlen hview hbytes ht ht'
  have hinput : SameInput s s' := ⟨hseed, hdlen, hbytes⟩
  rw [res0_of_exec_hash hp hrange ht, res0_of_exec_hash hp' hrange' ht']
  exact hinput.digest_eq_of_sameView hview

/-- Settles O54: the same input under another PMEM, class by class. -/
theorem hashReadsOnlyTheWordsOfItsClass : Obligations.HashReadsOnlyTheWordsOfItsClass := by
  unfold Obligations.HashReadsOnlyTheWordsOfItsClass
  intro s t t' w q hp hrange ht ht'
  have hinput := sameInput_withPmem s q
  have hres' : t'.res0 = ({ s with pmem := q } : State).digest w := res0_of_exec_hash hp hrange ht'
  rw [res0_of_exec_hash hp hrange ht, hres']
  exact ⟨hinput.digest_eq_of_short, hinput.digest_eq_of_medium, hinput.digest_eq_of_long⟩

end Sys2Proof.Machine

/-! # The decoder and the encoder (30_encoding.md R101, R104, R105)

A word is put back together from its three fields (`toNat_eq_fields`); the opcode table is read backwards
once, in `toNat_encode_of_decodeOp`. -/

namespace Sys2Proof

/-! ## From a word to its command and back -/

theorem decode_encode (i : Instr) : decode (encode i) = .ok i := by
  cases i with
  | phfull w => exact (Laws.EncodeRoundTrip.phfull w).1
  | phlast w => exact (Laws.EncodeRoundTrip.phlast w).1
  | hash w => exact (Laws.EncodeRoundTrip.hash w).1
  | _ => rfl

theorem formatN_eq_ok_iff {w : Bool} {i j : Instr} : formatN w i = .ok j ↔ w = false ∧ i = j := by
  cases w <;> simp [formatN]

/-- What an opcode and `W` decode to has the word they make up: thirteen rows, three of them format W. -/
theorem toNat_encode_of_decodeOp {op : Nat} {w : Bool} {i : Instr} (h : decodeOp op w = .ok i) :
    (encode i).toNat = op + 2 ^ 8 * w.toNat := by
  unfold decodeOp at h
  split at h
  case h_7 | h_8 | h_12 => cases h; cases w <;> rfl
  case h_14 => cases h
  all_goals
    obtain ⟨rfl, rfl⟩ := formatN_eq_ok_iff.1 h
    rfl

theorem toNat_whichField (c : Word) : (whichField c).toNat = c.toNat / 2 ^ 8 % 2 := by
  rw [whichField, BitVec.getLsbD, Nat.toNat_testBit]

/-- The three fields are all of a word (R100). -/
theorem toNat_eq_fields (c : Word) :
    c.toNat = opField c + 2 ^ 8 * (whichField c).toNat + 2 ^ 9 * reservedField c := by
  rw [toNat_whichField, opField, reservedField]
  omega

theorem decode_of_reserved {c : Word} (h : reservedField c ≠ 0) : decode c = .error .reservedBits :=
  if_pos h

theorem decode_of_fits {c : Word} (h : reservedField c = 0) :
    decode c = decodeOp (opField c) (whichField c) :=
  if_neg (not_not.2 h)

/-- A word that decodes is the command's word: its reserved bits are 0 and the rest is in the table. -/
theorem eq_encode_of_decode {c : Word} {i : Instr} (h : decode c = .ok i) : c = encode i := by
  by_cases hres : reservedField c = 0
  · rw [decode_of_fits hres] at h
    apply BitVec.eq_of_toNat_eq
    rw [toNat_eq_fields c, hres, toNat_encode_of_decodeOp h]
    rfl
  · rw [decode_of_reserved hres] at h
    cases h

/-- Settles O1, by the opcode table in both directions (`eq_encode_of_decode`, `decode_encode`). -/
theorem decodeAcceptsExactlyTheEncodings : Obligations.DecodeAcceptsExactlyTheEncodings := by
  unfold Obligations.DecodeAcceptsExactlyTheEncodings
  refine fun c i => ⟨eq_encode_of_decode, ?_⟩
  rintro rfl
  exact decode_encode i

/-! ## The opcode map by match and mask -/

theorem encode_selects_row (i : Instr) : ∃ r ∈ opcodeRows, encode i &&& r.mask = r.bits := by
  have hwf : wordWf (encode i) = true := by
    cases i with
    | phfull w => exact (Laws.EncodeRoundTrip.phfull w).2
    | phlast w => exact (Laws.EncodeRoundTrip.phlast w).2
    | hash w => exact (Laws.EncodeRoundTrip.hash w).2
    | _ => rfl
  simpa [wordWf, OpcodeRow.selects] using hwf

/-- Every bit is fixed in a format-N row. -/
theorem eq_of_and_maskN {c bits : Word} (h : c &&& maskN = bits) : c = bits :=
  (BitVec.and_allOnes (x := c)).symm.trans h

/-- Bit 8 alone is free in a format-W row. -/
theorem eq_wordW_of_and_maskW {c bits : Word} (h : c &&& maskW = bits) :
    c = wordW bits (whichField c) := by
  have hbit : c &&& 0x100 = if whichField c then 0x100 else 0 := BitVec.and_twoPow c 8
  have hsplit : c = c &&& maskW ||| c &&& 0x100 := by
    rw [← BitVec.and_or_distrib_left]
    exact (BitVec.and_allOnes (x := c)).symm
  rw [h, hbit] at hsplit
  rw [wordW]
  split_ifs at hsplit ⊢
  · exact hsplit
  · exact hsplit.trans BitVec.or_zero

/-- Each row selects the words of one command. -/
theorem exists_encode_of_selects {r : OpcodeRow} (hr : r ∈ opcodeRows) {c : Word}
    (h : c &&& r.mask = r.bits) : ∃ i, c = encode i := by
  simp only [opcodeRows, List.mem_cons, List.not_mem_nil, or_false] at hr
  rcases hr with rfl | rfl | rfl | rfl | rfl | rfl | rfl | rfl | rfl | rfl | rfl | rfl | rfl
  · exact ⟨.addf, eq_of_and_maskN h⟩
  · exact ⟨.adds, eq_of_and_maskN h⟩
  · exact ⟨.mulf, eq_of_and_maskN h⟩
  · exact ⟨.horner, eq_of_and_maskN h⟩
  · exact ⟨.redp, eq_of_and_maskN h⟩
  · exact ⟨.clmul, eq_of_and_maskN h⟩
  · exact ⟨.phfull _, eq_wordW_of_and_maskW h⟩
  · exact ⟨.phlast _, eq_wordW_of_and_maskW h⟩
  · exact ⟨.smix, eq_of_and_maskN h⟩
  · exact ⟨.final, eq_of_and_maskN h⟩
  · exact ⟨.prepare, eq_of_and_maskN h⟩
  · exact ⟨.hash _, eq_wordW_of_and_maskW h⟩
  · exact ⟨.fprint, eq_of_and_maskN h⟩

/-- Settles O2: the legal words are the commands' words, and those are the words the rows select. -/
theorem decodeAgreesWithMatchAndMask : Obligations.DecodeAgreesWithMatchAndMask := by
  unfold Obligations.DecodeAgreesWithMatchAndMask
  intro c
  constructor
  · rintro ⟨i, h⟩
    rw [eq_encode_of_decode h]
    exact encode_selects_row i
  · rintro ⟨r, hr, h⟩
    obtain ⟨i, rfl⟩ := exists_encode_of_selects hr h
    exact ⟨i, decode_encode i⟩

/-! ## Illegal words -/

/-- No row has another opcode than the thirteen. -/
theorem decodeOp_of_notMem {op : Nat} (w : Bool)
    (h : op ∉ [1, 2, 3, 4, 5, 0x10, 0x11, 0x12, 0x20, 0x30, 0x40, 0x50, 0x51]) :
    decodeOp op w = .error .unknownOpcode := by
  unfold decodeOp
  split
  case h_14 => rfl
  all_goals exact absurd (by decide) h

/-- A format-N opcode leaves no room for `W`. -/
theorem decodeOp_true_of_formatN {op : Nat} (h : op ∈ [1, 2, 3, 4, 5, 0x10, 0x20, 0x30, 0x40, 0x51]) :
    decodeOp op true = .error .whichOnFormatN := by
  simp only [List.mem_cons, List.not_mem_nil, or_false] at h
  rcases h with rfl | rfl | rfl | rfl | rfl | rfl | rfl | rfl | rfl | rfl <;> rfl

/-- Settles O3: the reserved bits are looked at first, then the opcode, then `W`. -/
theorem decodeNamesWhyAWordIsIllegal : Obligations.DecodeNamesWhyAWordIsIllegal := by
  unfold Obligations.DecodeNamesWhyAWordIsIllegal
  refine fun c => ⟨decode_of_reserved, fun hres hop => ?_, fun hres hop hw => ?_⟩
  · rw [decode_of_fits hres]
    exact decodeOp_of_notMem _ hop
  · have hwhich : whichField c = true := Bool.toNat_eq_one.1 ((toNat_whichField c).trans hw)
    rw [decode_of_fits hres, hwhich]
    exact decodeOp_true_of_formatN hop

/-- Settles O4: each word is the word of its command. -/
theorem sixteenWordsDecode : Obligations.SixteenWordsDecode := by
  unfold Obligations.SixteenWordsDecode
  exact ⟨decode_encode .addf, decode_encode .adds, decode_encode .mulf, decode_encode .horner,
    decode_encode .redp, decode_encode .clmul, decode_encode (.phfull false),
    decode_encode (.phfull true), decode_encode (.phlast false), decode_encode (.phlast true),
    decode_encode .smix, decode_encode .final, decode_encode .prepare, decode_encode (.hash false),
    decode_encode (.hash true), decode_encode .fprint⟩

end Sys2Proof

/-! # How a command completes (10_state.md R45, R46; 60_exceptions.md R300, R301)

`CommandEffect` says what every command has in common: it completes, with no error or one R301 lists for it,
and writes nothing but what R46 lists. -/

namespace Sys2Proof.Machine

/-! ## What a command does and leaves -/

/-- What the completion of `i` may have done on the way from `s` to `t` (R45, R46, R301). -/
structure CommandEffect (i : Instr) (s t : State) : Prop where
  idle : t.busy = false
  done : t.done = true
  err : t.err = .none ∨ t.err ∈ mayRaise i
  operands : KeepsOperands s t
  dmem : t.dmem = s.dmem
  events : t.events = s.events
  seen : t.seen = s.seen
  acc : i ≠ .horner → t.acc = s.acc
  params : i ≠ .prepare → t.pmem = s.pmem ∧ t.pvalid = s.pvalid ∧ t.fresh = s.fresh

theorem finish_effect (i : Instr) (s : State) (r0 r1 : Word) : CommandEffect i s (s.finish r0 r1) where
  idle := rfl
  done := rfl
  err := .inl rfl
  operands := ⟨rfl, rfl, rfl, rfl, rfl, rfl, rfl, rfl⟩
  dmem := rfl
  events := rfl
  seen := rfl
  acc _ := rfl
  params _ := ⟨rfl, rfl, rfl⟩

theorem raiseErr_effect {i : Instr} (s : State) {e : ErrCode} (he : e ∈ mayRaise i) :
    CommandEffect i s (s.raiseErr e) :=
  { finish_effect i s s.res0 s.res1 with err := .inr he }

theorem horner_effect (s : State) (r : Word) :
    CommandEffect .horner s { s.finish r 0 with acc := r } :=
  { finish_effect .horner s r 0 with acc := fun h => absurd rfl h }

theorem passPrepare_effect (s : State) (p : Pmem) : CommandEffect .prepare s (s.passPrepare p) :=
  { finish_effect .prepare s 1 0 with params := fun h => absurd rfl h }

theorem failPrepare_effect (s : State) : CommandEffect .prepare s s.failPrepare :=
  { finish_effect .prepare s 0 0 with
    err := .inr (List.mem_singleton.2 rfl)
    params := fun h => absurd rfl h }

/-- Every command, in every state, completes with its effect. -/
theorem exec_completes (i : Instr) (s : State) : ∃ t, exec i s = .next t ∧ CommandEffect i s t := by
  rcases exec_cases i s with ⟨r0, r1, h⟩ | ⟨e, he, h⟩ | ⟨rfl, r, h⟩ | ⟨rfl, ⟨p, -, h⟩ | h⟩
  · exact ⟨_, h, finish_effect i s r0 r1⟩
  · exact ⟨_, h, raiseErr_effect s he⟩
  · exact ⟨_, h, horner_effect s r⟩
  · exact ⟨_, h, passPrepare_effect s p⟩
  · exact ⟨_, h, failPrepare_effect s⟩

theorem exec_effect {i : Instr} {s t : State} (h : exec i s = .next t) : CommandEffect i s t := by
  obtain ⟨t', ht', heffect⟩ := exec_completes i s
  cases ht'.symm.trans h
  exact heffect

namespace CommandEffect
variable {i : Instr} {s t : State}

theorem cmd (h : CommandEffect i s t) : t.cmd = s.cmd := by
  obtain ⟨-, -, -, -, -, -, -, hcmd⟩ := h.operands
  exact hcmd

theorem keepsDmem (h : CommandEffect i s t) : KeepsDmem s t := by
  rw [KeepsDmem, h.dmem]
  exact ⟨rfl, fun _ => rfl⟩

theorem keepsParams (h : CommandEffect i s t) (hi : i ≠ .prepare) :
    KeepsParams s t ∧ t.fresh = s.fresh := by
  obtain ⟨hpmem, hpvalid, hfresh⟩ := h.params hi
  rw [KeepsParams, hpmem]
  exact ⟨⟨fun _ => rfl, hpvalid⟩, hfresh⟩

end CommandEffect

/-- Settles O7, by the effect common to all commands (`exec_completes`). -/
theorem everyCommandCompletesWithAListedError : Obligations.EveryCommandCompletesWithAListedError := by
  unfold Obligations.EveryCommandCompletesWithAListedError
  intro i s
  obtain ⟨t, ht, heffect⟩ := exec_completes i s
  exact ⟨t, ht, heffect.idle, heffect.done, heffect.cmd, heffect.err⟩

/-- Settles O55: the effect common to all commands, read for what it leaves. -/
theorem commandsWriteOnlyWhatR46Lists : Obligations.CommandsWriteOnlyWhatR46Lists := by
  unfold Obligations.CommandsWriteOnlyWhatR46Lists
  intro i s t h
  have heffect := exec_effect h
  exact ⟨heffect.keepsDmem, heffect.operands, heffect.events, heffect.seen, heffect.acc,
    heffect.keepsParams⟩

/-- Settles O56: but for PREPARE, the one way to end in an error is `State.raiseErr`. -/
theorem failedCommandChangesOnlyStatus : Obligations.FailedCommandChangesOnlyStatus := by
  unfold Obligations.FailedCommandChangesOnlyStatus
  intro i s t hi h herr
  rcases exec_cases i s with ⟨r0, r1, hres⟩ | ⟨e, -, hraise⟩ | ⟨-, r, hres⟩ | ⟨hprepare, -⟩
  · cases hres.symm.trans h
    exact absurd rfl herr
  · cases hraise.symm.trans h
    rfl
  · cases hres.symm.trans h
    exact absurd rfl herr
  · exact absurd hprepare hi

/-! ## The completion step (R45) -/

theorem completion_of_ok {s : State} {i : Instr} (h : decode s.cmd = .ok i) :
    completion s = exec i s := by
  rw [completion, State.pendingCommand, h]

theorem completion_of_error {s : State} {e : Illegal} (h : decode s.cmd = .error e) :
    completion s = .next (s.raiseErr .illegalCmd) := by
  rw [completion, State.pendingCommand, h]

/-- A completion step runs a command or reports an illegal word. -/
theorem completion_cases (s : State) :
    (∃ i t, decode s.cmd = .ok i ∧ completion s = .next t ∧ CommandEffect i s t) ∨
    ((∃ e, decode s.cmd = .error e) ∧ completion s = .next (s.raiseErr .illegalCmd)) := by
  cases hd : decode s.cmd with
  | ok i =>
    obtain ⟨t, ht, heffect⟩ := exec_completes i s
    exact .inl ⟨i, t, rfl, (completion_of_ok hd).trans ht, heffect⟩
  | error e => exact .inr ⟨⟨e, rfl⟩, completion_of_error hd⟩

/-- The pending command is completed and CMD keeps its word. -/
theorem completion_completes (s : State) :
    ∃ t, completion s = .next t ∧ t.busy = false ∧ t.done = true ∧ t.cmd = s.cmd := by
  rcases completion_cases s with ⟨i, t, -, ht, heffect⟩ | ⟨-, ht⟩
  · exact ⟨t, ht, heffect.idle, heffect.done, heffect.cmd⟩
  · exact ⟨_, ht, rfl, rfl, rfl⟩

section steps
variable {s : State}

theorem step_of_busy_of_nil (hb : s.busy = true) (hev : s.events = []) : step s = completion s := by
  rw [step, State.nextMove, hev]
  simp only [State.offerCompletion, hb, if_true]

theorem step_of_busy_of_complete {es : List Event} (hb : s.busy = true)
    (hev : s.events = .complete :: es) : step s = completion { s with events := es } := by
  rw [step, State.nextMove, hev]
  simp only [State.offerCompletion, hb, if_true]

theorem step_of_idle_of_nil (hb : s.busy = false) (hev : s.events = []) : step s = .next s := by
  rw [step, State.nextMove, hev]
  simp only [State.offerCompletion, hb, Bool.false_eq_true, if_false]

theorem step_of_reset {es : List Event} (hev : s.events = .reset :: es) :
    step s = .next (State.resetInput { s with events := es }) := by
  rw [step, State.nextMove, hev]

end steps

/-- Settles O5, by the completion step at the end of the events and at a completion event. -/
theorem stepRunsThePendingCommand : Obligations.StepRunsThePendingCommand := by
  unfold Obligations.StepRunsThePendingCommand
  intro s i hb hd
  exact ⟨fun hev => (step_of_busy_of_nil hb hev).trans (completion_of_ok hd),
    fun es hev => (step_of_busy_of_complete hb hev).trans (completion_of_ok hd)⟩

/-- Settles O6, by the completion step at the end of the events and at a completion event. -/
theorem illegalWordReportsError1AndNothingElse :
    Obligations.IllegalWordReportsError1AndNothingElse := by
  unfold Obligations.IllegalWordReportsError1AndNothingElse
  intro s e hb hd
  exact ⟨fun hev => (step_of_busy_of_nil hb hev).trans (completion_of_error hd),
    fun es hev => (step_of_busy_of_complete hb hev).trans (completion_of_error hd)⟩

/-- Settles O8: a move that is settled is a next state, and a completion completes. -/
theorem everyStepHasANextState : Obligations.EveryStepHasANextState := by
  unfold Obligations.EveryStepHasANextState
  intro s
  unfold step
  cases s.nextMove with
  | settled t => exact ⟨t, rfl⟩
  | completes t =>
    obtain ⟨t', ht', -⟩ := completion_completes t
    exact ⟨t', ht'⟩

/-- Settles O11, by the step with nothing to do. -/
theorem idleMachineStays : Obligations.IdleMachineStays := by
  unfold Obligations.IdleMachineStays
  exact fun s => step_of_idle_of_nil

/-! ## A pending command over several steps (70_reset_and_hazards.md R351) -/

/-- A machine that steps to a next state runs on from there. -/
theorem core_run_succ {m : Host.Core} {s s' : m.State} (h : m.step s = .next s') (n : Nat) :
    m.run (n + 1) s = m.run n s' := by
  rw [Host.Core.run, h]

theorem run_succ_of_step {s s' : State} (h : step s = .next s') (n : Nat) :
    Sys2Proof.core.run (n + 1) s = Sys2Proof.core.run n s' :=
  core_run_succ (m := Sys2Proof.core) h n

theorem run_one_of_step {s s' : State} (h : step s = .next s') :
    Sys2Proof.core.run 1 s = .next s' :=
  run_succ_of_step h 0

/-- A host operation leaves the pending command where it is: reads have no effect, writes are refused. -/
theorem step_of_busy_of_hostOp {s : State} {e : Event} {es : List Event} (hb : s.busy = true)
    (hev : s.events = e :: es) (hcomplete : e ≠ .complete) (hreset : e ≠ .reset) :
    ∃ t, step s = .next t ∧ t.busy = true ∧ t.cmd = s.cmd ∧ t.events = es := by
  cases e with
  | read haddr size => exact ⟨_, step_of_read hev, hb, rfl, rfl⟩
  | write haddr size v => exact ⟨_, step_of_write_of_busy hb hev, hb, rfl, rfl⟩
  | complete => exact absurd rfl hcomplete
  | reset => exact absurd rfl hreset

/-- Settles O10, by induction on the events still to come: a completion event or their end completes the
command, a host operation leaves it pending. -/
theorem pendingCommandCompletes : Obligations.PendingCommandCompletes := by
  unfold Obligations.PendingCommandCompletes
  intro s hb hreset
  generalize hev : s.events = es at hreset ⊢
  induction es generalizing s with
  | nil =>
    obtain ⟨t, ht, hdone⟩ := completion_completes s
    exact ⟨1, by simp, t, run_one_of_step ((step_of_busy_of_nil hb hev).trans ht), hdone⟩
  | cons e es ih =>
    have hne : e ≠ .reset := fun he => hreset (he ▸ List.mem_cons_self)
    by_cases hcomplete : e = .complete
    · subst hcomplete
      obtain ⟨t, ht, hdone⟩ := completion_completes { s with events := es }
      exact ⟨1, by simp, t, run_one_of_step ((step_of_busy_of_complete hb hev).trans ht), hdone⟩
    · obtain ⟨s', hs', hb', hcmd, hev'⟩ := step_of_busy_of_hostOp hb hev hcomplete hne
      obtain ⟨n, hn, t, ht, hidle, hdone, htcmd⟩ :=
        ih s' hb' hev' fun hmem => hreset (List.mem_cons_of_mem _ hmem)
      exact ⟨n + 1, by simpa using hn, t, (run_succ_of_step hs' n).trans ht, hidle, hdone,
        htcmd.trans hcmd⟩

end Sys2Proof.Machine

/-! # The invariant of the machine, and what changes the memories (10_state.md R28, R32 to R34, R44, R46)

A step completes a command, waits, lets the host read or write, or takes a reset (`step_cases`); each of
these keeps the invariant by its own lemma. -/

namespace Sys2Proof.Machine

/-! ## States that keep the invariant -/

namespace State.Inv
variable {s t : State}

/-- The invariant does not look at the host's side. -/
theorem withHostSide (h : s.Inv) (es : List Event) (rs : List HostResult) :
    State.Inv { s with events := es, seen := rs } :=
  ⟨h.dmemWf, h.dmemSize, h.paramSet, h.notBoth, h.errDone, h.untouched⟩

/-- A completed command that has left DMEM keeps the invariant if it leaves a ParamSet under PVALID. -/
theorem of_completed (h : s.Inv) (hdmem : t.dmem = s.dmem) (hidle : t.busy = false)
    (hdone : t.done = true) (hparams : t.pvalid = true → ParamSetOk t.pmem) : t.Inv where
  dmemWf := hdmem ▸ h.dmemWf
  dmemSize := by rw [State.sizeOk, hdmem]; exact h.dmemSize
  paramSet := hparams
  notBoth hboth := by simp [hidle] at hboth
  errDone _ := hdone
  untouched _ hnot := by simp [hdone] at hnot

/-- An accepted command is pending and without an error. -/
theorem acceptCommand (h : s.Inv) (v : Word) : (s.acceptCommand v).Inv where
  dmemWf := h.dmemWf
  dmemSize := h.dmemSize
  paramSet := h.paramSet
  notBoth hboth := by simp at hboth
  errDone herr := absurd rfl herr
  untouched hidle := by simp at hidle

/-- With PVALID withdrawn, PMEM may hold anything. -/
theorem writePmem (h : s.Inv) (w : Nat) (v : Word) : (s.writePmem w v).Inv where
  dmemWf := h.dmemWf
  dmemSize := h.dmemSize
  paramSet hpvalid := by simp at hpvalid
  notBoth := h.notBoth
  errDone := h.errDone
  untouched hidle hnot := by
    obtain ⟨hcmd, hres0, hres1, -⟩ := h.untouched hidle hnot
    exact ⟨hcmd, hres0, hres1, rfl⟩

/-- A write inside DMEM keeps its canonical form and its size. -/
theorem memWrite (h : s.Inv) {a n : Nat} (v : Word) (ha : a + n ≤ s.dmem.size) :
    State.Inv { s with dmem := memWrite s.dmem a v n } where
  dmemWf := memWrite_wf v ha h.dmemWf
  dmemSize := by rw [State.sizeOk, memWrite_size]; exact h.dmemSize
  paramSet := h.paramSet
  notBoth := h.notBoth
  errDone := h.errDone
  untouched := h.untouched

end State.Inv

/-- The reset state of every size of DMEM that R9 allows (R50). -/
theorem resetAt_inv {size : Nat} (h : paramsWf Config.T size = true) (n : Nat) :
    (State.resetAt size n).Inv where
  dmemWf := resetAt_dmem_wf size n
  dmemSize := h
  paramSet := nofun
  notBoth := nofun
  errDone herr := absurd rfl herr
  untouched _ _ := ⟨rfl, rfl, rfl, rfl⟩

/-- Settles O60: UMC's 65536 bytes are a size that R9 allows. -/
theorem invariantHoldsAtReset : Obligations.InvariantHoldsAtReset := by
  unfold Obligations.InvariantHoldsAtReset
  exact resetAt_inv (by decide) 0

/-! ## The completion step -/

/-- A PREPARE that passes leaves a ParamSet (R256); no other command touches PMEM or PVALID. -/
theorem exec_paramSet {i : Instr} {s t : State} (hs : s.pvalid = true → ParamSetOk s.pmem)
    (h : exec i s = .next t) : t.pvalid = true → ParamSetOk t.pmem := by
  by_cases hi : i = .prepare
  · subst hi
    intro hpvalid
    obtain ⟨_, _, hrun⟩ := prepare_eq_some_iff.1 (prepare_of_exec_pvalid h hpvalid)
    exact hrun.paramSetOk
  · obtain ⟨hpmem, hpvalid, -⟩ := (exec_effect h).params hi
    rwa [hpmem, hpvalid]

theorem completion_inv {s t : State} (hs : s.Inv) (h : completion s = .next t) : t.Inv := by
  cases hd : decode s.cmd with
  | ok i =>
    rw [completion_of_ok hd] at h
    have heffect := exec_effect h
    exact hs.of_completed heffect.dmem heffect.idle heffect.done (exec_paramSet hs.paramSet h)
  | error e =>
    rw [completion_of_error hd] at h
    cases h
    exact hs.of_completed rfl rfl rfl hs.paramSet

/-! ## Host writes and reset -/

theorem writeReg_inv {s t : State} {r : Reg} {v : Word} (hs : s.Inv) (h : s.writeReg r v = some t) :
    t.Inv := by
  cases r with
  | cmd => cases h; exact hs.acceptCommand v
  | id | status | res0 | res1 => cases h
  | _ => cases h; exact ⟨hs.dmemWf, hs.dmemSize, hs.paramSet, hs.notBoth, hs.errDone, hs.untouched⟩

/-- A word of DMEM lies inside it, because its size is a multiple of 8 (R9). -/
theorem writePlace_inv {s t : State} {haddr size : Nat} {at_ : Place} {v : Word} (hs : s.Inv)
    (hplace : place s.dmem.size haddr size = some at_) (h : s.writePlace at_ v = some t) : t.Inv := by
  have hat := place_at hplace
  cases at_ with
  | reg r => exact writeReg_inv hs h
  | pmemWord w => cases h; exact hs.writePmem w v
  | pmemByte w j => cases h; exact hs.writePmem w _
  | dmemWord a =>
    obtain ⟨-, haligned, hlt, -⟩ := hat
    obtain ⟨-, -, hsize⟩ := (sizeOk_iff s).1 hs.dmemSize
    cases h
    exact hs.memWrite v (by omega)
  | dmemByte a =>
    obtain ⟨-, hlt, -⟩ := hat
    cases h
    exact hs.memWrite v hlt

theorem hostWrite_inv {s : State} (hs : s.Inv) (haddr : Word) (size : Nat) (v : Word) :
    (s.hostWrite haddr size v).2.Inv := by
  rcases hostWrite_cases s haddr size v with hw | ⟨at_, t, -, hplace, hwrite, hw⟩ <;> rw [hw]
  · exact hs
  · exact writePlace_inv hs hplace hwrite

theorem observe_inv {s : State} (hs : s.Inv) (r : HostResult) : (s.observe r).Inv :=
  hs.withHostSide s.events _

theorem resetInput_inv {s : State} (hs : s.Inv) : s.resetInput.Inv :=
  (resetAt_inv hs.dmemSize (s.fresh + 1)).withHostSide s.events s.seen

/-- Settles O59, by the ways a step can go (`step_cases`), each of which keeps the invariant. -/
theorem everyStepKeepsTheInvariant : Obligations.EveryStepKeepsTheInvariant := by
  unfold Obligations.EveryStepKeepsTheInvariant
  intro s t hs h
  obtain ⟨es, -, hstep⟩ := step_cases h
  have hs' : State.Inv { s with events := es } := hs.withHostSide es s.seen
  rcases hstep with ⟨-, hcompletes, -⟩ | ⟨-, rfl, -⟩ | ⟨haddr, size, -, rfl⟩ |
    ⟨haddr, size, v, -, rfl⟩ | ⟨-, rfl⟩
  · exact completion_inv hs' hcompletes
  · exact hs'
  · exact observe_inv hs' _
  · exact observe_inv (hostWrite_inv hs' haddr size v) _
  · exact resetInput_inv hs'

/-! ## What changes the memories -/

theorem writeReg_memories {s t : State} {r : Reg} {v : Word} (h : s.writeReg r v = some t) :
    t.pmem = s.pmem ∧ t.dmem = s.dmem := by
  cases r <;> cases h <;> exact ⟨rfl, rfl⟩

/-- The places of the DMEM window. -/
def Place.isDmem : Place → Bool
  | .dmemWord _ => true
  | .dmemByte _ => true
  | _ => false

theorem inDmem_of_isDmem {dmemBytes haddr size : Nat} {at_ : Place}
    (h : place dmemBytes haddr size = some at_) (hd : at_.isDmem = true) : inDmem dmemBytes haddr := by
  have hat := place_at h
  cases at_ with
  | dmemWord _ | dmemByte _ =>
    simp only [PlaceAt] at hat
    simp only [inDmem]
    omega
  | reg _ | pmemWord _ | pmemByte _ _ => cases hd

/-- A write to a place changes the memory that holds the place, and never the size of DMEM. -/
theorem writePlace_memories {s t : State} {at_ : Place} {v : Word} (h : s.writePlace at_ v = some t) :
    t.dmem.size = s.dmem.size ∧ (t.pmem ≠ s.pmem → at_.isPmem = true) ∧
      (t.dmem ≠ s.dmem → at_.isDmem = true) := by
  cases at_ with
  | reg r =>
    obtain ⟨hpmem, hdmem⟩ := writeReg_memories h
    exact ⟨congrArg _ hdmem, fun hne => absurd hpmem hne, fun hne => absurd hdmem hne⟩
  | pmemWord _ | pmemByte _ _ => cases h; exact ⟨rfl, fun _ => rfl, fun hne => absurd rfl hne⟩
  | dmemWord _ | dmemByte _ =>
    cases h
    exact ⟨memWrite_size .., fun hne => absurd rfl hne, fun _ => rfl⟩

/-- A host write changes a memory only if it is accepted in its window (R73). -/
theorem hostWrite_memories (s : State) (haddr : Word) (size : Nat) (v : Word) :
    (s.hostWrite haddr size v).2.dmem.size = s.dmem.size ∧
    ((s.hostWrite haddr size v).2.pmem ≠ s.pmem →
      (s.hostWrite haddr size v).1 = .ok ∧ inPmem haddr.toNat) ∧
    ((s.hostWrite haddr size v).2.dmem ≠ s.dmem →
      (s.hostWrite haddr size v).1 = .ok ∧ inDmem s.dmem.size haddr.toNat) := by
  rcases hostWrite_cases s haddr size v with hw | ⟨at_, t, -, hplace, hwrite, hw⟩ <;> rw [hw]
  · exact ⟨rfl, fun hne => absurd rfl hne, fun hne => absurd rfl hne⟩
  · obtain ⟨hsize, hpmem, hdmem⟩ := writePlace_memories hwrite
    exact ⟨hsize, fun hne => ⟨rfl, (inPmem_iff_isPmem hplace).2 (hpmem hne)⟩,
      fun hne => ⟨rfl, inDmem_of_isDmem hplace (hdmem hne)⟩⟩

/-- A completion step leaves DMEM; it leaves PMEM too, unless it completes a PREPARE (R46). -/
theorem completion_memories {s t : State} (h : completion s = .next t) :
    t.dmem = s.dmem ∧ t.busy = false ∧ t.done = true ∧
      (t.pmem ≠ s.pmem → decode s.cmd = .ok .prepare) := by
  rcases completion_cases s with ⟨i, t', hd, ht, heffect⟩ | ⟨-, ht⟩
  · cases ht.symm.trans h
    refine ⟨heffect.dmem, heffect.idle, heffect.done, fun hne => ?_⟩
    by_contra hi
    obtain ⟨hpmem, -, -⟩ := heffect.params fun hprepare => hi (hprepare ▸ hd)
    exact hne hpmem
  · cases ht.symm.trans h
    exact ⟨rfl, rfl, rfl, fun hne => absurd rfl hne⟩

theorem pmem_ne_of_word_ne {p q : Pmem} (h : ∃ w, p.word w ≠ q.word w) : p ≠ q := by
  rintro rfl
  obtain ⟨w, hw⟩ := h
  exact hw rfl

theorem dmem_ne_of_read_ne {m m' : Memory} (h : ∃ a, m.read a ≠ m'.read a) : m ≠ m' := by
  rintro rfl
  obtain ⟨a, ha⟩ := h
  exact ha rfl

/-- Settles O58: a step that changes a memory is a completion of PREPARE, a host write or a reset. -/
theorem whatChangesTheMemories : Obligations.WhatChangesTheMemories := by
  unfold Obligations.WhatChangesTheMemories
  intro s t h
  obtain ⟨es, -, ⟨hb, hcompletes, -⟩ | ⟨-, rfl, -⟩ | ⟨haddr, size, -, rfl⟩ |
    ⟨haddr, size, v, hev, rfl⟩ | ⟨hev, rfl⟩⟩ := step_cases h
  · obtain ⟨hdmem, hidle, hdone, hprepare⟩ := completion_memories hcompletes
    exact ⟨congrArg _ hdmem, fun hne => .inl ⟨hb, hprepare (pmem_ne_of_word_ne hne), hidle, hdone⟩,
      fun hne => absurd hdmem (dmem_ne_of_read_ne hne)⟩
  · exact ⟨rfl, fun hne => absurd rfl (pmem_ne_of_word_ne hne),
      fun hne => absurd rfl (dmem_ne_of_read_ne hne)⟩
  · exact ⟨rfl, fun hne => absurd rfl (pmem_ne_of_word_ne hne),
      fun hne => absurd rfl (dmem_ne_of_read_ne hne)⟩
  · obtain ⟨hsize, hpmem, hdmem⟩ := hostWrite_memories s haddr size v
    have hside := hostWrite_hostSide s es s.seen haddr size v
    simp only [State.doWrite, observe_pmem, observe_dmem, hside]
    refine ⟨hsize, fun hne => ?_, fun hne => ?_⟩
    · obtain ⟨hok, hwindow⟩ := hpmem (pmem_ne_of_word_ne hne)
      exact .inr (.inl ⟨haddr, size, v, es, hev, hok, hwindow⟩)
    · obtain ⟨hok, hwindow⟩ := hdmem (dmem_ne_of_read_ne hne)
      exact .inl ⟨haddr, size, v, es, hev, hok, hwindow⟩
  · exact ⟨rfl, fun _ => .inr (.inr ⟨es, hev⟩), fun _ => .inr ⟨es, hev⟩⟩

end Sys2Proof.Machine

/-! # The host port and the reset state (20_memory.md R70 to R82, 10_state.md R27, R28, R50)

The address map is read once, in `exists_place_iff`; what a host operation does is then what it does at the
place its address has. -/

namespace Sys2Proof.Machine

/-! ## The address map (R71, R80) -/

theorem regOffset_of_regAt {offset : Nat} {r : Reg} (h : regAt offset = some r) : regOffset r = offset := by
  simpa using List.find?_some h

/-- Every aligned address below the end of the REG window has a register. -/
theorem exists_regOffset {haddr : Nat} (h8 : haddr % 8 = 0) (hlt : haddr < 0x68) :
    ∃ r, regOffset r = haddr := by
  have htable : ∀ k : Fin 13, regOffset (allRegs.get k) = 8 * k := by decide
  exact ⟨_, (htable ⟨haddr / 8, by omega⟩).trans (by simp only; omega)⟩

/-- The map has a place exactly for the accesses R71 allows. -/
theorem exists_place_iff {dmemBytes haddr size : Nat} :
    (∃ at_, place dmemBytes haddr size = some at_) ↔ LegalAccess dmemBytes haddr size := by
  constructor
  · rintro ⟨at_, h⟩
    have hat := place_at h
    cases at_ with
    | reg r =>
      obtain ⟨hsize, h8, hr⟩ := hat
      exact .inl ⟨hsize, h8, .inl (regAt_lt hr)⟩
    | pmemWord _ | pmemByte _ _ | dmemWord _ | dmemByte _ =>
      simp only [PlaceAt] at hat
      simp only [LegalAccess, inPmem, inDmem]
      omega
  · rintro (⟨rfl, h8, hlt | ⟨hlow, hhigh⟩ | ⟨hlow, hhigh⟩⟩ | ⟨rfl, ⟨hlow, hhigh⟩ | ⟨hlow, hhigh⟩⟩)
    · obtain ⟨r, rfl⟩ := exists_regOffset h8 hlt
      exact ⟨_, place_reg dmemBytes r⟩
    · obtain ⟨w, rfl⟩ : ∃ w, haddr = 0x1000 + 8 * w := ⟨(haddr - 0x1000) / 8, by omega⟩
      exact ⟨_, place_pmemWord (by omega)⟩
    · obtain ⟨a, rfl⟩ := Nat.exists_eq_add_of_le hlow
      exact ⟨_, place_dmemWord (by omega) (by omega)⟩
    · obtain ⟨w, j, hj, rfl⟩ : ∃ w j, j < 8 ∧ haddr = 0x1000 + 8 * w + j :=
        ⟨(haddr - 0x1000) / 8, (haddr - 0x1000) % 8, by omega, by omega⟩
      exact ⟨_, place_pmemByte (by omega) hj⟩
    · obtain ⟨a, rfl⟩ := Nat.exists_eq_add_of_le hlow
      exact ⟨_, place_dmemByte (by omega)⟩

/-! ## A host operation at its place -/

section atPlace
variable {s : State} {haddr : Word} {size : Nat} {at_ : Place}

theorem hostRead_of_place (h : place s.dmem.size haddr.toNat size = some at_) :
    s.hostRead haddr size = (.ok, s.readPlace at_) := by
  rw [State.hostRead, h]

theorem hostRead_of_no_place (h : place s.dmem.size haddr.toNat size = none) :
    s.hostRead haddr size = (.err, 0) := by
  rw [State.hostRead, h]

theorem hostWrite_of_place {t : State} {v : Word} (hb : s.busy = false)
    (h : place s.dmem.size haddr.toNat size = some at_) (hw : s.writePlace at_ v = some t) :
    s.hostWrite haddr size v = (.ok, t) := by
  rw [State.hostWrite, hb, h]
  simp only [Bool.false_eq_true, if_false, hw]

end atPlace

/-- At an address given as a number. -/
theorem hostRead_at {s : State} {haddr size : Nat} {at_ : Place} (hlt : haddr < 2 ^ 64)
    (h : place s.dmem.size haddr size = some at_) :
    s.hostRead (BitVec.ofNat 64 haddr) size = (.ok, s.readPlace at_) :=
  hostRead_of_place (by rwa [haddr_toNat hlt])

theorem hostWrite_at {s t : State} {haddr size : Nat} {at_ : Place} {v : Word} (hb : s.busy = false)
    (hlt : haddr < 2 ^ 64) (h : place s.dmem.size haddr size = some at_)
    (hw : s.writePlace at_ v = some t) :
    s.hostWrite (BitVec.ofNat 64 haddr) size v = (.ok, t) :=
  hostWrite_of_place hb (by rwa [haddr_toNat hlt]) hw

/-- Settles O16: a read is answered exactly where the map has a place. -/
theorem hostReadAllowedExactly : Obligations.HostReadAllowedExactly := by
  unfold Obligations.HostReadAllowedExactly
  intro s haddr size
  rw [← exists_place_iff]
  cases h : place s.dmem.size haddr.toNat size with
  | none => simp [hostRead_of_no_place h]
  | some at_ => simp [hostRead_of_place h]

/-- The registers a host write does not reach, by their offsets. -/
theorem exists_writeReg_iff {s : State} {r : Reg} {v : Word} :
    (∃ t, s.writeReg r v = some t) ↔ regOffset r ∉ [0x00, 0x10, 0x58, 0x60] := by
  cases r <;> simp [State.writeReg, regOffset]

/-- The memories lie above the registers and are written everywhere. -/
theorem exists_writePlace_iff {s : State} {dmemBytes haddr size : Nat} {at_ : Place} {v : Word}
    (h : place dmemBytes haddr size = some at_) :
    (∃ t, s.writePlace at_ v = some t) ↔ haddr ∉ [0x00, 0x10, 0x58, 0x60] := by
  have hat := place_at h
  cases at_ with
  | reg r =>
    obtain ⟨-, -, hr⟩ := hat
    rw [← regOffset_of_regAt hr]
    exact exists_writeReg_iff
  | pmemWord _ | pmemByte _ _ | dmemWord _ | dmemByte _ =>
    simp only [PlaceAt] at hat
    refine ⟨fun _ => ?_, fun _ => ⟨_, rfl⟩⟩
    simp only [List.mem_cons, List.not_mem_nil, or_false]
    omega

/-- Settles O17: an accepted write has a place that can be written, and a refused one leaves the state. -/
theorem hostWriteAcceptedExactly : Obligations.HostWriteAcceptedExactly := by
  unfold Obligations.HostWriteAcceptedExactly
  intro s haddr size v
  refine ⟨⟨fun hok => ?_, ?_⟩, fun herr => ?_⟩
  · rcases hostWrite_cases s haddr size v with hw | ⟨at_, t, hb, hplace, hwrite, -⟩
    · simp [hw] at hok
    · exact ⟨hb, exists_place_iff.1 ⟨at_, hplace⟩, (exists_writePlace_iff hplace).1 ⟨t, hwrite⟩⟩
  · rintro ⟨hb, hlegal, hwritable⟩
    obtain ⟨at_, hplace⟩ := exists_place_iff.2 hlegal
    obtain ⟨t, hwrite⟩ := (exists_writePlace_iff (s := s) (v := v) hplace).2 hwritable
    rw [hostWrite_of_place hb hplace hwrite]
  · rcases hostWrite_cases s haddr size v with hw | ⟨-, t, -, -, -, hw⟩
    · exact hw
    · simp [hw] at herr

/-! ## Registers -/

/-- A write to a register, at any address with that offset. -/
theorem hostWrite_reg {s t : State} {r : Reg} {haddr v : Word} (hb : s.busy = false)
    (haddr_eq : haddr.toNat = regOffset r) (hw : s.writeReg r v = some t) :
    s.hostWrite haddr 8 v = (.ok, t) :=
  hostWrite_of_place (at_ := .reg r) hb (haddr_eq ▸ place_reg _ r) hw

theorem hostRead_reg (s : State) {r : Reg} {haddr : Word} (haddr_eq : haddr.toNat = regOffset r) :
    s.hostRead haddr 8 = (.ok, s.readReg r) :=
  hostRead_of_place (haddr_eq ▸ place_reg _ r)

/-- Settles O14: CMD takes the write and the step observes it. -/
theorem cmdWriteIsAccepted : Obligations.CmdWriteIsAccepted := by
  unfold Obligations.CmdWriteIsAccepted
  intro s es v hb hev
  have hw : s.hostWrite 0x08 8 v = (.ok, s.acceptCommand v) := hostWrite_reg (r := .cmd) hb rfl rfl
  rw [step_of_write hev, hw]
  rfl

/-- The registers that hold a command's operands (R20). -/
def Reg.isOperand : Reg → Bool
  | .a | .b | .acc | .m0 | .m1 | .seed | .dptr | .dlen => true
  | _ => false

/-- Writing an operand register leaves every other register, the memories and the host's side. -/
theorem writeReg_operand (s : State) {r : Reg} (v : Word) (hr : Reg.isOperand r = true) :
    ∃ t, s.writeReg r v = some t ∧ t.readReg r = v ∧ (∀ q, q ≠ r → t.readReg q = s.readReg q) ∧
      t.pmem = s.pmem ∧ t.dmem = s.dmem ∧ KeepsHostSide s t := by
  cases r with
  | id | cmd | status | res0 | res1 => cases hr
  | _ =>
    refine ⟨_, rfl, rfl, fun q hq => ?_, rfl, rfl, rfl, rfl, rfl⟩
    cases q <;> simp_all [State.readReg, State.status]

/-- Settles O15: the eight offsets are those of the operand registers. -/
theorem operandRegisterWriteReadsBack : Obligations.OperandRegisterWriteReadsBack := by
  unfold Obligations.OperandRegisterWriteReadsBack
  intro s r haddr v hb hmem
  have htable : ∀ x ∈ [(Reg.a, (0x18 : Word)), (.b, 0x20), (.acc, 0x28), (.m0, 0x30), (.m1, 0x38),
      (.seed, 0x40), (.dptr, 0x48), (.dlen, 0x50)],
      Reg.isOperand x.1 = true ∧ x.2.toNat = regOffset x.1 := by decide
  obtain ⟨hr, hoffset⟩ := htable _ hmem
  obtain ⟨t, hw, hread, hother, hpmem, hdmem, hside⟩ := writeReg_operand s v hr
  refine ⟨t, hostWrite_reg hb hoffset hw, ?_, hread, hother, fun w => by rw [hpmem], ?_, hside⟩
  · rw [hostRead_reg t hoffset, hread]
  · exact ⟨congrArg _ hdmem, fun a => by rw [hdmem]⟩

/-! ## STATUS and ID (R27, R28) -/

theorem bit_le_one (b : Bool) : bit b ≤ 1 := by
  cases b <;> decide

theorem decide_bit_eq_one (b : Bool) : decide (bit b = 1) = b := by
  cases b <;> rfl

theorem errCode_code_le (e : ErrCode) : e.code ≤ 5 := by
  cases e <;> decide

theorem toNat_status (s : State) :
    s.status.toNat = bit s.busy + 2 * bit s.done + 4 * bit s.pvalid + 16 * s.err.code := by
  have hbusy := bit_le_one s.busy
  have hdone := bit_le_one s.done
  have hpvalid := bit_le_one s.pvalid
  have herr := errCode_code_le s.err
  exact haddr_toNat (by omega)

/-- Settles O22, by the value of STATUS as a sum of its fields (`toNat_status`). -/
theorem statusAndIdReadTheirFields : Obligations.StatusAndIdReadTheirFields := by
  unfold Obligations.StatusAndIdReadTheirFields
  intro s
  have hbusy := bit_le_one s.busy
  have hdone := bit_le_one s.done
  have hpvalid := bit_le_one s.pvalid
  have herr := errCode_code_le s.err
  simp only [BitVec.getLsbD, Nat.testBit_eq_decide_div_mod_eq, toNat_status]
  refine ⟨rfl, rfl, ?_, ?_, ?_, ?_, by omega, by omega⟩
  · exact (decide_eq_decide.2 (by omega)).trans (decide_bit_eq_one s.busy)
  · exact (decide_eq_decide.2 (by omega)).trans (decide_bit_eq_one s.done)
  · exact (decide_eq_decide.2 (by omega)).trans (decide_bit_eq_one s.pvalid)
  · exact decide_eq_false (by omega)

/-! ## What a read returns -/

theorem toNat_zeroExtend_byte (b : Byte) : (b.zeroExtend 64 : Word).toNat = b.toNat :=
  (BitVec.toNat_setWidth 64 b).trans (Nat.mod_eq_of_lt (b.isLt.trans (by decide)))

theorem toNat_memWord (m : Memory) (a : Nat) : (memWord m a).toNat = memRead m a 8 :=
  haddr_toNat (memRead_lt m a 8)

/-- Settles O18: each address has its place, and a place its value. -/
theorem hostReadReturnsTheAddressedValue : Obligations.HostReadReturnsTheAddressedValue := by
  unfold Obligations.HostReadReturnsTheAddressedValue
  intro s hsize
  obtain ⟨-, hmax, haligned⟩ := (sizeOk_iff s).1 hsize
  refine ⟨fun x hx => ?_, fun w hw => ?_, fun w hw j hj => ?_, fun a ha => ?_, fun a ha => ?_⟩
  · change x ∈ allRegs.map fun r => (wrap64 (regOffset r), s.readReg r) at hx
    obtain ⟨r, -, rfl⟩ := List.mem_map.1 hx
    exact hostRead_reg s (by cases r <;> rfl)
  · exact hostRead_at (by omega) (place_pmemWord hw)
  · refine ⟨_, hostRead_at (by omega) (place_pmemByte hw hj), ?_⟩
    rw [State.readPlace, toNat_zeroExtend_byte, byteOf_toNat]
  · refine ⟨_, hostRead_at (by omega) (place_dmemByte ha), ?_⟩
    rw [State.readPlace, toNat_zeroExtend_byte]
  · refine ⟨_, hostRead_at (by omega) (place_dmemWord ha (by omega)), fun j hj => ?_⟩
    rw [State.readPlace, toNat_memWord, memRead_byte _ _ hj]

/-! ## What a write stores (R33, R73) -/

theorem word_setWord_same (p : Pmem) {w : Nat} (hw : w < 68) (v : Word) : (p.setWord w v).word w = v := by
  rw [word_setWord]
  exact if_pos ⟨rfl, hw⟩

theorem word_setWord_ne (p : Pmem) {w x : Nat} (hx : x ≠ w) (v : Word) :
    (p.setWord w v).word x = p.word x := by
  rw [word_setWord]
  exact if_neg fun h => hx h.1

/-- One byte lane written into a word of PMEM, byte by byte. -/
theorem setByte_lanes (v value : Word) {j k : Nat} (hj : j < 8) (hk : k < 8) :
    (setByte v j (byteOf value 0)).toNat / 2 ^ (8 * k) % 2 ^ 8 =
      if k = j then value.toNat % 2 ^ 8 else v.toNat / 2 ^ (8 * k) % 2 ^ 8 := by
  rw [← byteOf_toNat, byteOf_setByte v _ hj hk]
  split_ifs
  · rw [byteOf_toNat, Nat.mul_zero, pow_zero, Nat.div_one]
  · rw [byteOf_toNat]

/-- Settles O19: both sizes go through `State.writePmem`, which withdraws PVALID. -/
theorem pmemWriteReplacesAndWithdrawsPvalid : Obligations.PmemWriteReplacesAndWithdrawsPvalid := by
  unfold Obligations.PmemWriteReplacesAndWithdrawsPvalid
  intro s w v hb hw
  refine ⟨⟨s.writePmem w v, ?_, word_setWord_same _ hw v, fun x hx => word_setWord_ne _ hx v, rfl⟩,
    fun j hj => ⟨s.writePmem w (setByte (s.pmem.word w) j (byteOf v 0)), ?_, fun k hk => ?_,
      fun x hx => word_setWord_ne _ hx _, rfl⟩⟩
  · exact hostWrite_at hb (by omega) (place_pmemWord hw) rfl
  · exact hostWrite_at hb (by omega) (place_pmemByte hw hj) rfl
  · rw [writePmem_pmem, word_setWord_same _ hw, setByte_lanes _ _ hj hk]

theorem toNat_read_memWrite (m : Memory) (a : Nat) (v : Word) {n j : Nat} (hj : j < n) :
    ((memWrite m a v n).read (a + j)).toNat = v.toNat / 2 ^ (8 * j) % 2 ^ 8 := by
  rw [read_memWrite, if_pos (by omega), Nat.add_sub_cancel_left, byteOf_toNat]

theorem read_memWrite_outside (m : Memory) {a n x : Nat} (v : Word) (hx : ¬(a ≤ x ∧ x < a + n)) :
    (memWrite m a v n).read x = m.read x := by
  rw [read_memWrite, if_neg hx]

/-- Settles O20: both sizes are a `memWrite`, which stores the bytes of the value and no others. -/
theorem dmemWriteStoresItsBytes : Obligations.DmemWriteStoresItsBytes := by
  unfold Obligations.DmemWriteStoresItsBytes
  intro s a v hsize hb
  obtain ⟨-, hmax, haligned⟩ := (sizeOk_iff s).1 hsize
  refine ⟨fun ha => ⟨{ s with dmem := memWrite s.dmem (8 * a) v 8 }, ?_,
      fun j hj => toNat_read_memWrite _ _ v hj, fun x hx => read_memWrite_outside _ v hx, rfl,
      memWrite_size ..⟩,
    fun ha => ⟨{ s with dmem := memWrite s.dmem a v 1 }, ?_, ?_,
      fun x hx => read_memWrite_outside _ v (by omega), rfl, memWrite_size ..⟩⟩
  · exact hostWrite_at hb (by omega) (place_dmemWord ha (by omega)) rfl
  · exact hostWrite_at hb (by omega) (place_dmemByte ha) rfl
  · simpa using toNat_read_memWrite s.dmem a v (j := 0) Nat.one_pos

/-! ## Reset (R50, R340) -/

theorem resetAt_readReg (size n : Nat) {r : Reg} (hr : r ≠ .id) :
    (State.resetAt size n).readReg r = 0 := by
  cases r with
  | id => exact absurd rfl hr
  | _ => rfl

theorem resetAt_word (size n : Nat) {w : Nat} (hw : w < 68) :
    (State.resetAt size n).pmem.word w = Config.pmemReset n w :=
  word_pmemOf _ hw

theorem resetAt_read (size n a : Nat) : (State.resetAt size n).dmem.read a = Config.dmemReset n a := rfl

theorem ne_id_of_mem_resetRegs : ∀ r ∈ [Reg.cmd, .status, .a, .b, .acc, .m0, .m1, .seed, .dptr, .dlen,
    .res0, .res1], r ≠ .id := by
  decide

/-- Settles O12, by the reset state of any size and draw. -/
theorem resetLeavesZeroRegisters : Obligations.ResetLeavesZeroRegisters := by
  unfold Obligations.ResetLeavesZeroRegisters
  exact ⟨fun r hr => resetAt_readReg _ _ (ne_id_of_mem_resetRegs r hr), rfl, rfl, rfl,
    fun w hw => resetAt_word _ _ hw, resetAt_read _ _⟩

/-- Settles O13: a reset event leaves the reset state of the next draw, beside the host's side. -/
theorem resetDiscardsThePendingCommand : Obligations.ResetDiscardsThePendingCommand := by
  unfold Obligations.ResetDiscardsThePendingCommand
  intro s es hev
  exact ⟨_, step_of_reset hev, rfl, rfl, rfl, rfl,
    fun r hr => resetAt_readReg s.dmem.size (s.fresh + 1) (ne_id_of_mem_resetRegs r hr),
    fun w hw => resetAt_word s.dmem.size (s.fresh + 1) hw, resetAt_read s.dmem.size (s.fresh + 1)⟩

end Sys2Proof.Machine

/-! # Results and errors of single commands (40_modarith.md, 41_ph.md, 43_finalizer.md, 45_dispatch.md) -/

namespace Sys2Proof.Machine

/-! ## ModArith (R142, R150, R160) -/

/-- Settles O23, by the value of `add_fast`. -/
theorem addfResult : Obligations.AddfResult := by
  unfold Obligations.AddfResult
  intro s
  refine ⟨s.finish (addFast s.a s.b) 0, rfl, toNat_addFast_of_lt, fun hcarry => ?_, rfl,
    finish_completedWith s _ 0, rfl, finish_keepsAllButResults s _ 0⟩
  rw [finish_res0, toNat_addFast, if_neg (by omega)]

/-- Settles O26, by the value of `mul_fast`. -/
theorem mulfResult : Obligations.MulfResult := by
  unfold Obligations.MulfResult
  exact fun s => ⟨s.finish (mulFast s.a s.b) 0, rfl, toNat_mulFast s.a s.b, rfl,
    finish_completedWith s _ 0, rfl, finish_keepsAllButResults s _ 0⟩

/-- Settles O30: the Horner update is a remainder modulo M, written to both registers. -/
theorem hornerResult : Obligations.HornerResult := by
  unfold Obligations.HornerResult
  intro s
  have hvalue := toNat_hornerDoubleUpdate s.acc s.m0 s.m1 s.a s.b
  have hcanonical := hvalue.trans_lt (Nat.mod_lt _ (by decide))
  exact ⟨_, rfl, rfl, hcanonical, hvalue, rfl,
    finish_completedWith s (hornerDoubleUpdate s.acc s.m0 s.m1 s.a s.b) 0,
    finish_keepsAllButResults s (hornerDoubleUpdate s.acc s.m0 s.m1 s.a s.b) 0⟩

/-! ## The Finalizer (R240 to R242) -/

/-- Settles O40, by the Finalizer on naturals. -/
theorem finalResult : Obligations.FinalResult := by
  unfold Obligations.FinalResult
  intro s
  refine ⟨s.finish (finalizer s.a) 0, rfl, ?_, rfl, finish_completedWith s _ 0, rfl,
    finish_keepsAllButResults s _ 0⟩
  rw [finish_res0, finalizer, toNat_const_mul, toNat_xorShift]
  rfl

/-- Xor-shifting twice by `n` cancels the middle terms. -/
theorem xorShift_xorShift (v : Word) (n : Nat) : xorShift (xorShift v n) n = xorShift v (n + n) := by
  rw [xorShift, xorShift, xorShift, BitVec.ushiftRight_xor_distrib, BitVec.shiftRight_add]
  rw [BitVec.xor_assoc, ← BitVec.xor_assoc (v >>> n), BitVec.xor_self, BitVec.zero_xor]

theorem xorShift_of_le (v : Word) {n : Nat} (h : 64 ≤ n) : xorShift v n = v := by
  rw [xorShift, BitVec.ushiftRight_eq_zero h, BitVec.xor_zero]

/-- A shift by 27 is undone by a second one and one by 54. -/
theorem xorShift_finalShift_leftInverse :
    Function.LeftInverse (fun v => xorShift (xorShift v 27) 54) (xorShift · 27) := fun v => by
  simp only [xorShift_xorShift]
  exact xorShift_of_le v (by decide)

/-- The inverse of `C2` modulo `2⁶⁴`; `C2` is odd. -/
def invC2 : Word := 0x319642b2d24d8ec3

theorem invC2_mul_C2 : invC2 * Config.C2 = 1 := by decide

theorem mul_C2_injective : Function.Injective (Config.C2 * ·) := fun v w h => by
  have hmul : invC2 * (Config.C2 * v) = invC2 * (Config.C2 * w) := congrArg (invC2 * ·) h
  rwa [← mul_assoc, ← mul_assoc, invC2_mul_C2, one_mul, one_mul] at hmul

/-- Settles O41: both steps of the Finalizer can be undone, and words are finitely many. -/
theorem finalizerIsABijection : Obligations.FinalizerIsABijection := by
  unfold Obligations.FinalizerIsABijection
  have hinjective : Function.Injective finalizer :=
    mul_C2_injective.comp xorShift_finalShift_leftInverse.injective
  exact Finite.injective_iff_bijective.1 hinjective

/-! ## The carry-less product (R182) -/

theorem xorBelow_xor (n : Nat) (f g : Nat → Bool) :
    xorBelow n (fun j => xor (f j) (g j)) = xor (xorBelow n f) (xorBelow n g) := by
  induction n with
  | zero => rfl
  | succ n ih =>
    simp only [xorBelow_succ, ih, Bool.xor_assoc, Bool.xor_left_comm]

/-- The sum of the spec read backwards exchanges the factors. -/
theorem clmul64_comm (a b : Word) : clmul64 a b = clmul64 b a := by
  refine BitVec.eq_of_getLsbD_eq fun k hk => ?_
  rw [getLsbD_clmul64 a b hk, getLsbD_clmul64 b a hk, ← xorBelow_reflect k]
  refine xorBelow_congr fun i hi => ?_
  rw [Nat.sub_sub_self (Nat.le_of_lt_succ hi), Bool.and_comm]

theorem clmul64_xor_left (a a' b : Word) : clmul64 (a ^^^ a') b = clmul64 a b ^^^ clmul64 a' b := by
  refine BitVec.eq_of_getLsbD_eq fun k hk => ?_
  rw [BitVec.getLsbD_xor, getLsbD_clmul64 _ b hk, getLsbD_clmul64 a b hk, getLsbD_clmul64 a' b hk,
    ← xorBelow_xor]
  refine xorBelow_congr fun i _ => ?_
  rw [BitVec.getLsbD_xor, Bool.and_xor_distrib_right]

/-- Settles O33, by the bits of the product. -/
theorem clmulIsCommutativeAndLinear : Obligations.ClmulIsCommutativeAndLinear := by
  unfold Obligations.ClmulIsCommutativeAndLinear
  exact fun a a' b => ⟨clmul64_comm a b, clmul64_xor_left a a' b, getLsbD_clmul64_127 a b⟩

/-! ## PHFULL and PHLAST (R184, R187, R188) -/

/-- Settles O35, by the checks of PHFULL in their order. -/
theorem phfullErrors : Obligations.PhfullErrors := by
  unfold Obligations.PhfullErrors
  intro s w
  have hexec : exec (.phfull w) s = _ := execPhfull_eq w s
  rw [hexec]
  refine ⟨fun hp => ?_, fun hp hrange => ?_⟩
  · rw [if_pos hp]
    rfl
  · rw [if_neg (by simp [hp]), if_pos hrange]
    rfl

/-- Settles O37, by the checks of PHLAST in their order. -/
theorem phlastErrors : Obligations.PhlastErrors := by
  unfold Obligations.PhlastErrors
  intro s w
  have hexec : exec (.phlast w) s = _ := execPhlast_eq w s
  rw [hexec]
  refine ⟨fun hp => ?_, fun hp hlen => ?_, fun hp hpos hle hrange => ?_⟩
  · rw [if_pos hp]
    rfl
  · rw [if_neg (by simp [hp]), if_pos hlen]
    rfl
  · rw [if_neg (by simp [hp]), if_neg (by omega), if_pos hrange]
    rfl

/-- In a block of 256 bytes the tail pair is the sixteenth pair (R187). -/
theorem phLastBlock_of_full (m : Memory) (k : KeyView) (seed : Word) (base : Nat) :
    phLastBlock m k seed base 256 = phFullBlock m k seed base := by
  rw [phLastBlock_eq, phFullBlock_eq]
  rfl

/-- Settles O38: with DLEN 256 the checks are the same, and so is the block. -/
theorem phlastOfAFullBlockIsPhfull : Obligations.PhlastOfAFullBlockIsPhfull := by
  unfold Obligations.PhlastOfAFullBlockIsPhfull
  intro s w hlen
  have hlen256 : s.dlen.toNat = 256 := congrArg BitVec.toNat hlen
  have hlast : exec (.phlast w) s = _ := execPhlast_eq w s
  have hfull : exec (.phfull w) s = _ := execPhfull_eq w s
  have hlenOk : ¬(256 = 0 ∨ 256 < 256) := by decide
  have hlow : s.dptr.toNat + 256 < 16 ∨ s.dmem.size < s.dptr.toNat + 256 ↔
      s.dmem.size < s.dptr.toNat + 256 := by omega
  rw [hlast, hfull, hlen256, phLastBlock_of_full, if_neg hlenOk]
  simp only [hlow]

/-! ## HASH and FPRINT (R283, R284) -/

/-- Settles O51: HASH and FPRINT have the same checks in the same order. -/
theorem hashAndFprintErrors : Obligations.HashAndFprintErrors := by
  unfold Obligations.HashAndFprintErrors
  intro s i hi
  have hexec : ∃ r0 r1, exec i s = .next (if s.pvalid = false then s.raiseErr .paramInvalid
      else if s.dmem.size < s.dptr.toNat + s.dlen.toNat then s.raiseErr .dataRange
      else s.finish r0 r1) := by
    rcases hi with rfl | rfl | rfl
    · exact ⟨_, _, execHash_eq false s⟩
    · exact ⟨_, _, execHash_eq true s⟩
    · exact ⟨_, _, execFprint_eq s⟩
  obtain ⟨r0, r1, hexec⟩ := hexec
  rw [hexec]
  refine ⟨fun hp => ?_, fun hp hrange => ?_⟩
  · rw [if_pos hp]
    rfl
  · rw [if_neg (by simp [hp]), if_pos hrange]
    rfl

/-! ## Packing 0 to 8 bytes (R211, R212) -/

section packing
variable (m : Memory) (a : Nat)

theorem memRead_one : memRead m a 1 = (m.read a).toNat := by
  simp [memRead]

theorem memRead_two : memRead m a 2 = (m.read a).toNat + 256 * (m.read (a + 1)).toNat := by
  simp [memRead]

theorem memRead_four : memRead m a 4 = (m.read a).toNat + 2 ^ 8 * (m.read (a + 1)).toNat +
    2 ^ 16 * (m.read (a + 2)).toNat + 2 ^ 24 * (m.read (a + 3)).toNat := by
  simp only [memRead]
  ring

end packing

/-- Below four bytes nothing wraps; bits 0 and 1 of the length say which half is read. -/
theorem vecToU64_of_lt_four (m : Memory) (base : Nat) {n : Nat} (h : n < 4) :
    (vecToU64 m base n).toNat =
      (let lo := if n % 2 = 1 then memRead m base 1 else 0
       let hi := if 2 ≤ n then memRead m (base + n - 2) 2 else 0
       hi * 2 ^ 32 + (lo + hi)) := by
  have hbits : ∀ n < 4, (n.testBit 0 = true ↔ n % 2 = 1) ∧ (n.testBit 1 = true ↔ 2 ≤ n) := by decide
  obtain ⟨hbit0, hbit1⟩ := hbits n h
  have hlo : (if n % 2 = 1 then memRead m base 1 else 0) < 2 ^ 8 := by
    have := memRead_lt m base 1
    split_ifs <;> omega
  have hhi : (if 2 ≤ n then memRead m (base + n - 2) 2 else 0) < 2 ^ 16 := by
    have := memRead_lt m (base + n - 2) 2
    split_ifs <;> omega
  simp only [vecToU64, if_neg (show ¬4 ≤ n by omega), hbit0, hbit1]
  rw [toNat_packHalves _ (by omega), Nat.mod_eq_of_lt (by omega)]

theorem vecToU64_of_four_le (m : Memory) (base : Nat) {n : Nat} (h : 4 ≤ n) :
    (vecToU64 m base n).toNat =
      memRead m (base + n - 4) 4 * 2 ^ 32 +
        (memRead m base 4 + memRead m (base + n - 4) 4) % 2 ^ 32 := by
  rw [vecToU64, if_pos h, toNat_packHalves _ (memRead_lt m _ 4)]

/-- Settles O48: below four bytes the two low bits of the length say what is read and nothing wraps; from four
on both halves are read whole. -/
theorem vecToU64ByCases : Obligations.VecToU64ByCases := by
  unfold Obligations.VecToU64ByCases
  intro m base n
  refine ⟨?_, ?_, ?_, ?_, fun h4 h8 => ?_⟩
  · rintro rfl
    exact (vecToU64_of_lt_four m base (by decide)).trans (by simp)
  · rintro rfl
    exact (vecToU64_of_lt_four m base (by decide)).trans (by simp [memRead_one])
  · rintro rfl
    exact (vecToU64_of_lt_four m base (by decide)).trans (by simp [memRead_two])
  · rintro rfl
    exact (vecToU64_of_lt_four m base (by decide)).trans (by simp [memRead_one, memRead_two])
  · obtain ⟨k, rfl⟩ := Nat.exists_eq_add_of_le' h4
    rw [vecToU64_of_four_le m base h4, memRead_four, memRead_four]
    rfl

end Sys2Proof.Machine

/-! # How PREPARE passes or fails (44_prepare.md R251 to R257)

The two loops of `prepare` are read as the relations that Safety states them by. `RowTakes` is one row of step
1, and two of them are `TakesMultipliers`; step 2 goes from one first repeated key word to the next
(`exists_firstRepeat`), which with at most two reservoir words is `RepairsKeys`. -/

namespace Sys2Proof.Machine

/-! ## PREPARE as a whole (R256, R257) -/

/-- Settles O42: the run of a PREPARE that passes leaves a ParamSet, and a failure draws a free value. -/
theorem preparePassesWithAParamSetOrFails : Obligations.PreparePassesWithAParamSetOrFails := by
  unfold Obligations.PreparePassesWithAParamSetOrFails
  intro s
  cases hp : prepare s.pmem with
  | some q =>
    obtain ⟨_, _, hrun⟩ := prepare_eq_some_iff.1 hp
    have heffect := passPrepare_effect s q
    exact ⟨_, exec_prepare_of_some hp, rfl, rfl, heffect.operands, heffect.keepsDmem, rfl, rfl,
      .inl ⟨passPrepare_completedWith s q, rfl, rfl, hrun.paramSetOk, rfl⟩⟩
  | none =>
    have heffect := failPrepare_effect s
    exact ⟨_, exec_prepare_of_none hp, rfl, rfl, heffect.operands, heffect.keepsDmem, rfl, rfl,
      .inr ⟨failPrepare_completedWith s, rfl, rfl, rfl, fun w hw => word_pmemOf _ hw⟩⟩

/-! ## Step 1 (R252) -/

/-- One row of step 1: the row that holds `f` accepts `g`, before masking, and leaves `rest` of the
reservoir. -/
inductive RowTakes : Word → List Word → Word → List Word → Prop
  | own {f : Word} {res : List Word} (accepted : IsMultiplier f) : RowTakes f res f res
  | next {f r g : Word} {res rest : List Word} (rejected : ¬IsMultiplier f)
      (taken : RowTakes r res g rest) : RowTakes f (r :: res) g rest

theorem RowTakes.isMultiplier {f g : Word} {res rest : List Word} (h : RowTakes f res g rest) :
    IsMultiplier g := by
  induction h with
  | own accepted => exact accepted
  | next _ _ ih => exact ih

theorem pickMultiplier_of_isMultiplier {f : Word} (h : IsMultiplier f) (res : List Word) :
    pickMultiplier f res = some (mask61 f, res) :=
  pickMultiplier_of_acceptable ((acceptable_mask61 f).2 h) res

theorem pickMultiplier_nil_of_not {f : Word} (h : ¬IsMultiplier f) : pickMultiplier f [] = none := by
  rw [pickMultiplier, if_neg (mt (acceptable_mask61 f).1 h)]

theorem pickMultiplier_cons_of_not {f : Word} (h : ¬IsMultiplier f) (r : Word) (res : List Word) :
    pickMultiplier f (r :: res) = pickMultiplier r res := by
  rw [pickMultiplier, if_neg (mt (acceptable_mask61 f).1 h)]

theorem RowTakes.pickMultiplier_eq {f g : Word} {res rest : List Word} (h : RowTakes f res g rest) :
    pickMultiplier f res = some (mask61 g, rest) := by
  induction h with
  | own accepted => exact pickMultiplier_of_isMultiplier accepted _
  | next rejected _ ih => rw [pickMultiplier_cons_of_not rejected, ih]

theorem exists_rowTakes {f m : Word} {res rest : List Word} (h : pickMultiplier f res = some (m, rest)) :
    ∃ g, RowTakes f res g rest := by
  by_cases hf : IsMultiplier f
  · rw [pickMultiplier_of_isMultiplier hf] at h
    cases h
    exact ⟨f, .own hf⟩
  · induction res generalizing f with
    | nil =>
      rw [pickMultiplier_nil_of_not hf] at h
      cases h
    | cons r res ih =>
      rw [pickMultiplier_cons_of_not hf] at h
      by_cases hr : IsMultiplier r
      · rw [pickMultiplier_of_isMultiplier hr] at h
        cases h
        exact ⟨r, .next hf (.own hr)⟩
      · obtain ⟨g, hg⟩ := ih h hr
        exact ⟨g, .next hf hg⟩

/-- The six ways of Safety are two rows that spend at most two words between them. -/
theorem takesMultipliers_iff {f0 f1 r0 r1 g0 g1 : Word} {rest : List Word} :
    TakesMultipliers f0 f1 r0 r1 g0 g1 rest ↔
      ∃ left, RowTakes f0 [r0, r1] g0 left ∧ RowTakes f1 left g1 rest := by
  constructor
  · rintro ⟨h0, h1, ⟨rfl, rfl, rfl⟩ | ⟨n0, rfl, rfl, rfl⟩ | ⟨n0, n1, rfl, rfl, rfl⟩ |
      ⟨rfl, n1, rfl, rfl⟩ | ⟨rfl, n1, n2, rfl, rfl⟩ | ⟨n0, rfl, n1, rfl, rfl⟩⟩
    · exact ⟨_, .own h0, .own h1⟩
    · exact ⟨_, .next n0 (.own h0), .own h1⟩
    · exact ⟨_, .next n0 (.next n1 (.own h0)), .own h1⟩
    · exact ⟨_, .own h0, .next n1 (.own h1)⟩
    · exact ⟨_, .own h0, .next n1 (.next n2 (.own h1))⟩
    · exact ⟨_, .next n0 (.own h0), .next n1 (.own h1)⟩
  · rintro ⟨left, hrow0, hrow1⟩
    refine ⟨hrow0.isMultiplier, hrow1.isMultiplier, ?_⟩
    cases hrow0 with
    | own =>
      cases hrow1 with
      | own => exact .inl ⟨rfl, rfl, rfl⟩
      | next n1 hrow1 =>
        cases hrow1 with
        | own => exact .inr (.inr (.inr (.inl ⟨rfl, n1, rfl, rfl⟩)))
        | next n2 hrow1 =>
          cases hrow1
          exact .inr (.inr (.inr (.inr (.inl ⟨rfl, n1, n2, rfl, rfl⟩))))
    | next n0 hrow0 =>
      cases hrow0 with
      | own =>
        cases hrow1 with
        | own => exact .inr (.inl ⟨n0, rfl, rfl, rfl⟩)
        | next n1 hrow1 =>
          cases hrow1
          exact .inr (.inr (.inr (.inr (.inr ⟨n0, rfl, n1, rfl, rfl⟩))))
      | next n1 hrow0 =>
        cases hrow0
        cases hrow1
        exact .inr (.inr (.inl ⟨n0, n1, rfl, rfl, rfl⟩))

/-! ## Step 2 (R253) -/

/-- The first `n` key words are pairwise distinct. -/
def DistinctBelow (n : Nat) (k : Nat → Word) : Prop := ∀ i < n, ∀ j < n, k i = k j → i = j

theorem DistinctBelow.mono {n i : Nat} {k : Nat → Word} (h : DistinctBelow n k) (hi : i ≤ n) :
    DistinctBelow i k :=
  fun a ha b hb => h a (ha.trans_le hi) b (hb.trans_le hi)

theorem distinctBelow_iff {n : Nat} {k : Nat → Word} :
    DistinctBelow n k ↔ ∀ i < n, ¬RepeatsEarlier k i := by
  constructor
  · rintro h i hi ⟨j, hj, heq⟩
    exact absurd (h j (hj.trans hi) i hi heq) hj.ne
  · intro h a ha b hb heq
    rcases Nat.lt_trichotomy a b with hlt | hab | hlt
    · exact absurd ⟨a, hlt, heq⟩ (h b hb)
    · exact hab
    · exact absurd ⟨b, hlt, heq.symm⟩ (h a ha)

/-- Replacing key word `i` does not touch those before it. -/
theorem distinctBelow_update_iff {i n : Nat} {k : Nat → Word} {r : Word} (hn : n ≤ i) :
    DistinctBelow n (Function.update k i r) ↔ DistinctBelow n k := by
  have hsame (a : Nat) (ha : a < n) : Function.update k i r a = k a :=
    Function.update_of_ne (ha.trans_le hn).ne _ _
  constructor <;> intro h a ha b hb heq
  · exact h a ha b hb (by rwa [hsame a ha, hsame b hb])
  · exact h a ha b hb (by rwa [hsame a ha, hsame b hb] at heq)

/-- Key words that are not all distinct have a first one that repeats an earlier one. -/
theorem exists_firstRepeat {n : Nat} {k : Nat → Word} (h : ¬DistinctBelow n k) :
    ∃ i < n, RepeatsEarlier k i ∧ DistinctBelow i k := by
  classical
  have hex : ∃ i, i < n ∧ RepeatsEarlier k i := by simpa [distinctBelow_iff] using h
  obtain ⟨hlt, hrep⟩ := Nat.find_spec hex
  exact ⟨Nat.find hex, hlt, hrep,
    distinctBelow_iff.2 fun j hj hrep' => Nat.find_min hex hj ⟨hj.trans hlt, hrep'⟩⟩

/-- The first `n` key words in order. -/
def keysBelow (n : Nat) (k : Nat → Word) : List Word := (List.range n).map k

theorem keys_eq_keysBelow (p : Pmem) : p.keys = keysBelow 64 p.ph := keys_eq p

theorem keysBelow_length (n : Nat) (k : Nat → Word) : (keysBelow n k).length = n := by
  simp [keysBelow]

theorem keysBelow_getElem? {n i : Nat} (k : Nat → Word) (hi : i < n) :
    (keysBelow n k)[i]? = some (k i) := by
  simp [keysBelow, hi]

theorem keysBelow_nodup_iff {n : Nat} {k : Nat → Word} : (keysBelow n k).Nodup ↔ DistinctBelow n k := by
  rw [keysBelow, List.nodup_map_iff_inj_on List.nodup_range]
  simp only [List.mem_range]
  rfl

theorem mem_keysBelow_of_repeats {k : Nat → Word} {i : Nat} (h : RepeatsEarlier k i) :
    k i ∈ keysBelow i k := by
  obtain ⟨j, hj, heq⟩ := h
  exact List.mem_map.2 ⟨j, List.mem_range.2 hj, heq⟩

/-- The key words with word `i` replaced: those before it, the new one, those after it. -/
theorem keysBelow_update {n i : Nat} (k : Nat → Word) (hi : i < n) (r : Word) :
    keysBelow n (Function.update k i r) = keysBelow i k ++ r :: (keysBelow n k).drop (i + 1) := by
  have hset : keysBelow n (Function.update k i r) = (keysBelow n k).set i r := by
    refine List.ext_getElem (by simp [keysBelow]) fun j _ _ => ?_
    simp [keysBelow, List.getElem_set, Function.update_apply, eq_comm]
  have htake : (keysBelow n k).take i = keysBelow i k := by
    rw [keysBelow, keysBelow, ← List.map_take, List.take_range, Nat.min_eq_left hi.le]
  rw [hset, List.set_eq_take_append_cons_drop, if_pos (by rwa [keysBelow_length]), htake]

theorem keysBelow_split {n i : Nat} (k : Nat → Word) (hi : i < n) :
    ∃ back, keysBelow n k = keysBelow i k ++ k i :: back ∧
      ∀ r, keysBelow n (Function.update k i r) = keysBelow i k ++ r :: back := by
  refine ⟨_, ?_, keysBelow_update k hi⟩
  rw [← keysBelow_update k hi, Function.update_eq_self]

theorem repairKeys_of_distinct {k : Nat → Word} (h : DistinctBelow 64 k) (res : List Word) :
    repairKeys [] (keysBelow 64 k) res = some (keysBelow 64 k) :=
  repairKeys_of_nodup (keysBelow_nodup_iff.2 h) res

section firstRepeat
variable {k : Nat → Word} {i : Nat}

/-- At the first repeated key word step 2 demands a reservoir word. -/
theorem repairKeys_nil_of_firstRepeat (hi : i < 64) (hrep : RepeatsEarlier k i)
    (hdistinct : DistinctBelow i k) : repairKeys [] (keysBelow 64 k) [] = none := by
  obtain ⟨back, hk, -⟩ := keysBelow_split k hi
  obtain ⟨hnone, -⟩ :=
    repairKeys_repeated back (keysBelow_nodup_iff.2 hdistinct) (mem_keysBelow_of_repeats hrep)
  rw [hk, hnone]

/-- It goes on with the next reservoir word in place of the first repeated key word. -/
theorem repairKeys_cons_of_firstRepeat (hi : i < 64) (hrep : RepeatsEarlier k i)
    (hdistinct : DistinctBelow i k) (r : Word) (res : List Word) :
    repairKeys [] (keysBelow 64 k) (r :: res) =
      repairKeys [] (keysBelow 64 (Function.update k i r)) res := by
  obtain ⟨back, hk, hupdate⟩ := keysBelow_split k hi
  obtain ⟨-, hnext⟩ :=
    repairKeys_repeated back (keysBelow_nodup_iff.2 hdistinct) (mem_keysBelow_of_repeats hrep)
  rw [hk, hupdate, hnext]

end firstRepeat

/-- What Safety calls a repair is what step 2 answers: each replaced key word is the first repeated one. -/
theorem repairKeys_of_repairsKeys {k k' : Nat → Word} {rest : List Word} (h : RepairsKeys k rest k') :
    repairKeys [] (keysBelow 64 k) rest = some (keysBelow 64 k') := by
  obtain ⟨hdistinct, hways⟩ := h
  have hdistinct : DistinctBelow 64 k' := hdistinct
  rcases hways with rfl | ⟨i, r, tail, hi, rfl, hrep, rfl⟩ |
    ⟨i, j, r, r', hij, hj, rfl, hrep, hrep', rfl⟩
  · exact repairKeys_of_distinct hdistinct rest
  · have hbelow := (distinctBelow_update_iff le_rfl).1 (hdistinct.mono hi.le)
    rw [repairKeys_cons_of_firstRepeat hi hrep hbelow, repairKeys_of_distinct hdistinct]
  · have hbelow' := (distinctBelow_update_iff le_rfl).1 (hdistinct.mono hj.le)
    have hbelow := (distinctBelow_update_iff le_rfl).1 (hbelow'.mono hij)
    rw [repairKeys_cons_of_firstRepeat (hij.trans_lt hj) hrep hbelow,
      repairKeys_cons_of_firstRepeat hj hrep' hbelow', repairKeys_of_distinct hdistinct]

/-- Where step 2 passes with at most two reservoir words, it has made one of the repairs of Safety. -/
theorem exists_repairsKeys {k : Nat → Word} {rest ks : List Word} (hlen : rest.length ≤ 2)
    (h : repairKeys [] (keysBelow 64 k) rest = some ks) : ∃ k', RepairsKeys k rest k' := by
  by_cases hk : DistinctBelow 64 k
  · exact ⟨k, hk, .inl rfl⟩
  obtain ⟨i, hi, hrep, hbelow⟩ := exists_firstRepeat hk
  cases rest with
  | nil => simp [repairKeys_nil_of_firstRepeat hi hrep hbelow] at h
  | cons r rest =>
    rw [repairKeys_cons_of_firstRepeat hi hrep hbelow] at h
    by_cases hk1 : DistinctBelow 64 (Function.update k i r)
    · exact ⟨_, hk1, .inr (.inl ⟨i, r, rest, hi, rfl, hrep, rfl⟩)⟩
    obtain ⟨j, hj, hrep', hbelow'⟩ := exists_firstRepeat hk1
    have hij : i ≤ j := by
      by_contra hlt
      exact distinctBelow_iff.1 ((distinctBelow_update_iff le_rfl).2 hbelow) j (by omega) hrep'
    cases rest with
    | nil => simp [repairKeys_nil_of_firstRepeat hj hrep' hbelow'] at h
    | cons r' rest =>
      obtain rfl : rest = [] := List.length_eq_zero_iff.1 (by simpa using hlen)
      rw [repairKeys_cons_of_firstRepeat hj hrep' hbelow'] at h
      by_cases hk2 : DistinctBelow 64 (Function.update (Function.update k i r) j r')
      · exact ⟨_, hk2, .inr (.inr ⟨i, j, r, r', hij, hj, rfl, hrep, hrep', rfl⟩)⟩
      obtain ⟨l, hl, hrep'', hbelow''⟩ := exists_firstRepeat hk2
      simp [repairKeys_nil_of_firstRepeat hl hrep'' hbelow''] at h

/-! ## The whole of PREPARE by its reservoir (R251 to R254) -/

/-- Steps 1 and 2 pass on `p` with the multipliers `g0`, `g1`, before masking, and the key words `keys`. -/
def PrepareTakes (p : Pmem) (g0 g1 : Word) (keys : Nat → Word) : Prop :=
  ∃ rest, TakesMultipliers (p.poly 0 1) (p.poly 1 1) (p.poly 0 0) (p.poly 1 0) g0 g1 rest ∧
    RepairsKeys p.ph rest keys

theorem RowTakes.length_le {f g : Word} {res rest : List Word} (h : RowTakes f res g rest) :
    rest.length ≤ res.length := by
  induction h with
  | own => exact le_rfl
  | next _ _ ih => exact ih.trans (Nat.le_succ _)

/-- A PREPARE that passes has taken its words in the order of Safety. -/
theorem exists_prepareTakes {p q : Pmem} (h : prepare p = some q) :
    ∃ g0 g1 keys, PrepareTakes p g0 g1 keys := by
  obtain ⟨left0, left1, hrun⟩ := prepare_eq_some_iff.1 h
  obtain ⟨g0, hrow0⟩ := exists_rowTakes hrun.row0
  obtain ⟨g1, hrow1⟩ := exists_rowTakes hrun.row1
  obtain ⟨keys, hkeys⟩ :=
    exists_repairsKeys (hrow1.length_le.trans hrow0.length_le) (keys_eq_keysBelow p ▸ hrun.keys)
  exact ⟨g0, g1, keys, left1, takesMultipliers_iff.2 ⟨left0, hrow0, hrow1⟩, hkeys⟩

/-- The value of a multiplier's row as step 3 leaves it. -/
theorem toNat_squareP_mask61 {g : Word} (h : IsMultiplier g) :
    (squareP (mask61 g)).toNat = (g.toNat % 2 ^ 61) ^ 2 % (2 ^ 61 - 1) := by
  obtain ⟨-, hlt⟩ := h
  have hmask := toNat_mask61 g
  rw [toNat_squareP (hmask ▸ hlt), hmask]
  rfl

/-- Words that can be taken in that order are the words PREPARE leaves. -/
theorem PrepareTakes.prepare_eq {p : Pmem} {g0 g1 : Word} {keys : Nat → Word}
    (h : PrepareTakes p g0 g1 keys) :
    ∃ q, prepare p = some q ∧
      (q.poly 0 1).toNat = g0.toNat % 2 ^ 61 ∧
      (q.poly 0 0).toNat = (g0.toNat % 2 ^ 61) ^ 2 % (2 ^ 61 - 1) ∧
      (q.poly 1 1).toNat = g1.toNat % 2 ^ 61 ∧
      (q.poly 1 0).toNat = (g1.toNat % 2 ^ 61) ^ 2 % (2 ^ 61 - 1) ∧
      ∀ i < 64, q.ph i = keys i := by
  obtain ⟨rest, htakes, hrepairs⟩ := h
  obtain ⟨left, hrow0, hrow1⟩ := takesMultipliers_iff.1 htakes
  have hkeys := repairKeys_of_repairsKeys hrepairs
  rw [← keys_eq_keysBelow] at hkeys
  obtain ⟨h00, h01, h10, h11, hph⟩ := word_prepared p (squareP (mask61 g0)) (mask61 g0)
    (squareP (mask61 g1)) (mask61 g1) (keys := keysBelow 64 keys) (keysBelow_length 64 keys)
  have hprepare : prepare p = some (p.setWords 0 (squareP (mask61 g0) :: mask61 g0 ::
      squareP (mask61 g1) :: mask61 g1 :: keysBelow 64 keys)) := by
    simp only [prepare, hrow0.pickMultiplier_eq, hrow1.pickMultiplier_eq, hkeys]
  refine ⟨_, hprepare, ?_, ?_, ?_, ?_, fun i hi => ?_⟩
  · rw [h01, toNat_mask61]
  · rw [h00, toNat_squareP_mask61 hrow0.isMultiplier]
  · rw [h11, toNat_mask61]
  · rw [h10, toNat_squareP_mask61 hrow1.isMultiplier]
  · exact Option.some.inj ((hph i hi).symm.trans (keysBelow_getElem? keys hi))

/-- Settles O43: words that can be taken make PREPARE pass with them (`PrepareTakes.prepare_eq`), and a
PREPARE that passes has taken some (`exists_prepareTakes`). -/
theorem prepareSpendsTheReservoirInOrder : Obligations.PrepareSpendsTheReservoirInOrder := by
  unfold Obligations.PrepareSpendsTheReservoirInOrder
  intro s
  change ∃ t, _ ∧ _ ∧ _ ∧ _ ∧ (∀ g0 g1 keys, PrepareTakes s.pmem g0 g1 keys → _) ∧
    ((¬∃ g0 g1 keys, PrepareTakes s.pmem g0 g1 keys) → _)
  cases hp : prepare s.pmem with
  | some q =>
    have heffect := passPrepare_effect s q
    refine ⟨_, exec_prepare_of_some hp, rfl, heffect.operands, heffect.keepsDmem,
      fun g0 g1 keys htakes => ?_, fun hnone => absurd (exists_prepareTakes hp) hnone⟩
    obtain ⟨q', hq', hwords⟩ := htakes.prepare_eq
    cases hp.symm.trans hq'
    exact ⟨passPrepare_completedWith s q, rfl, rfl, rfl, ⟨rfl, rfl, rfl⟩, hwords⟩
  | none =>
    have heffect := failPrepare_effect s
    refine ⟨_, exec_prepare_of_none hp, rfl, heffect.operands, heffect.keepsDmem,
      fun g0 g1 keys htakes => ?_, fun _ => ⟨failPrepare_completedWith s, rfl, rfl, rfl⟩⟩
    obtain ⟨q', hq', -⟩ := htakes.prepare_eq
    cases hp.symm.trans hq'

end Sys2Proof.Machine
